-- ==== Sys2Proof/Word.lean ====
section
/-! DEFINITION. The words of the machine: the data byte, the 14-bit program word, the 13-bit program
counter (spec 00_scope.md R7: CELL_BITS, WORD_BITS, PC_BITS). All are unsigned (R12); bit 0 is the
least significant (R11). -/

namespace Sys2Proof

/-- One cell of the register file, or W (00_scope.md R7, `CELL_BITS` and `W_BITS`). -/
abbrev Byte := BitVec 8

/-- One word of program memory (00_scope.md R7, `WORD_BITS`). -/
abbrev ProgWord := BitVec 14

/-- The program counter and a return-stack entry (00_scope.md R7, `PC_BITS`, `STACK_ENTRY_BITS`). -/
abbrev PcWord := BitVec 13

end Sys2Proof
end

