-- ==== Sys2Proof/Syntax.lean ====
section
/-! DEFINITION. The instructions: one constructor per row of spec/opcode_table.json, in the table's
order (30_encoding.md R96). A field the decoder ignores (R100, R101, R99) is carried as the operand `x`,
so that an instruction stands for exactly one word; no meaning reads it. -/

namespace Sys2Proof

/-- The destination bit `d` (30_encoding.md R91): 0 selects W, 1 the file register. -/
inductive Dest where
  | w
  | f
  deriving DecidableEq, Repr

/-- The 35 instructions and the undecodable class of 30_encoding.md R96. -/
inductive Instr where
  /-- `101kkkkkkkkkkk` -/
  | goto (kbig : BitVec 11)
  /-- `100kkkkkkkkkkk` -/
  | call (kbig : BitVec 11)
  /-- the word 0x0008, RETURN -/
  | ret
  /-- `1101xxkkkkkkkk` -/
  | retlw (x : BitVec 2) (k : BitVec 8)
  /-- the word 0x0009 -/
  | retfie
  /-- `0000000xxxxxxx` but for the four fixed words -/
  | nop (x : BitVec 7)
  /-- the word 0x0064 -/
  | clrwdt
  /-- the word 0x0063 -/
  | sleep
  /-- `000111dfffffff` -/
  | addwf (d : Dest) (f : BitVec 7)
  /-- `000101dfffffff` -/
  | andwf (d : Dest) (f : BitVec 7)
  /-- `0000011fffffff` -/
  | clrf (f : BitVec 7)
  /-- `0000010xxxxxxx` -/
  | clrw (x : BitVec 7)
  /-- `001001dfffffff` -/
  | comf (d : Dest) (f : BitVec 7)
  /-- `000011dfffffff` -/
  | decf (d : Dest) (f : BitVec 7)
  /-- `001011dfffffff` -/
  | decfsz (d : Dest) (f : BitVec 7)
  /-- `001010dfffffff` -/
  | incf (d : Dest) (f : BitVec 7)
  /-- `001111dfffffff` -/
  | incfsz (d : Dest) (f : BitVec 7)
  /-- `000100dfffffff` -/
  | iorwf (d : Dest) (f : BitVec 7)
  /-- `001000dfffffff` -/
  | movf (d : Dest) (f : BitVec 7)
  /-- `0000001fffffff` -/
  | movwf (f : BitVec 7)
  /-- `001101dfffffff` -/
  | rlf (d : Dest) (f : BitVec 7)
  /-- `001100dfffffff` -/
  | rrf (d : Dest) (f : BitVec 7)
  /-- `000010dfffffff` -/
  | subwf (d : Dest) (f : BitVec 7)
  /-- `001110dfffffff` -/
  | swapf (d : Dest) (f : BitVec 7)
  /-- `000110dfffffff` -/
  | xorwf (d : Dest) (f : BitVec 7)
  /-- `0100bbbfffffff` -/
  | bcf (b : BitVec 3) (f : BitVec 7)
  /-- `0101bbbfffffff` -/
  | bsf (b : BitVec 3) (f : BitVec 7)
  /-- `0110bbbfffffff` -/
  | btfsc (b : BitVec 3) (f : BitVec 7)
  /-- `0111bbbfffffff` -/
  | btfss (b : BitVec 3) (f : BitVec 7)
  /-- `11111xkkkkkkkk` -/
  | addlw (x : BitVec 1) (k : BitVec 8)
  /-- `111001kkkkkkkk` -/
  | andlw (k : BitVec 8)
  /-- `111000kkkkkkkk` -/
  | iorlw (k : BitVec 8)
  /-- `1100xxkkkkkkkk` -/
  | movlw (x : BitVec 2) (k : BitVec 8)
  /-- `11110xkkkkkkkk` -/
  | sublw (x : BitVec 1) (k : BitVec 8)
  /-- `111010kkkkkkkk` -/
  | xorlw (k : BitVec 8)
  /-- `111011xxxxxxxx`, the words no row selects (42_system.md R156) -/
  | undecodable (x : BitVec 8)
  deriving DecidableEq, Repr

end Sys2Proof
end

