-- ==== Sys2Proof/WellFormed.lean ====
section
/-! DEFINITION. Which instructions are well formed. The operand types carry the field ranges of
30_encoding.md R91; the one further condition is R95's: the four fixed words are not NOPs. -/

namespace Sys2Proof

/-- The NOP class is every low 7-bit pattern but those of RETURN, RETFIE, SLEEP and CLRWDT
(30_encoding.md R100). -/
def nopBits (x : BitVec 7) : Bool :=
  x != 0x08 && x != 0x09 && x != 0x63 && x != 0x64

/-- Well-formedness of an instruction. -/
def Instr.wf : Instr → Bool
  | .goto _ => true
  | .call _ => true
  | .ret => true
  | .retlw _ _ => true
  | .retfie => true
  | .nop x => nopBits x
  | .clrwdt => true
  | .sleep => true
  | .addwf _ _ => true
  | .andwf _ _ => true
  | .clrf _ => true
  | .clrw _ => true
  | .comf _ _ => true
  | .decf _ _ => true
  | .decfsz _ _ => true
  | .incf _ _ => true
  | .incfsz _ _ => true
  | .iorwf _ _ => true
  | .movf _ _ => true
  | .movwf _ => true
  | .rlf _ _ => true
  | .rrf _ _ => true
  | .subwf _ _ => true
  | .swapf _ _ => true
  | .xorwf _ _ => true
  | .bcf _ _ => true
  | .bsf _ _ => true
  | .btfsc _ _ => true
  | .btfss _ _ => true
  | .addlw _ _ => true
  | .andlw _ => true
  | .iorlw _ => true
  | .movlw _ _ => true
  | .sublw _ _ => true
  | .xorlw _ => true
  | .undecodable _ => true

end Sys2Proof
end

