-- ==== Sys2Proof/Decode.lean ====
section
/-! DEFINITION. Decoder and encoder (30_encoding.md R91 to R101). A program word is 14 bits and every
word selects exactly one row (R98), so decoding a word never fails; a number that is no 14-bit word is
rejected by name. -/

namespace Sys2Proof

/-- Why a number is not decoded. -/
inductive DecodeError where
  /-- The number is above 0x3FFF, so it is no program word (20_memory.md R76). Raised by `decode`; safe. -/
  | notAProgramWord (n : Nat)
  deriving DecidableEq, Repr

/-- The destination bit of a word as a constructor (30_encoding.md R91). -/
def Dest.ofBit (d : BitVec 1) : Dest := if d = 1 then .f else .w

/-- The bit that encodes a destination (30_encoding.md R91). -/
def Dest.bit : Dest → BitVec 1
  | .w => 0
  | .f => 1

/-- The top `n` bits of the 14-bit word are the number `p` (30_encoding.md R94: a prefix "is matched on
the 14-bit word, MSB first"). -/
def hasPrefix (w : ProgWord) (n p : Nat) : Bool := w.toNat >>> (14 - n) == p

/-- The decoder, in the order of 30_encoding.md R95: the four fixed words, the NOP prefix, then the
rows of R96 in the table's order. The last row is the undecodable class, prefix `111011` (R99). -/
def decodeWord (w : ProgWord) : Instr :=
  let f := w.extractLsb' 0 7
  let d := Dest.ofBit (w.extractLsb' 7 1)
  let b := w.extractLsb' 7 3
  let k := w.extractLsb' 0 8
  let kbig := w.extractLsb' 0 11
  if w = 0x0008 then .ret
  else if w = 0x0009 then .retfie
  else if w = 0x0063 then .sleep
  else if w = 0x0064 then .clrwdt
  else if hasPrefix w 7 0b0000000 then .nop f
  else if hasPrefix w 3 0b101 then .goto kbig
  else if hasPrefix w 3 0b100 then .call kbig
  else if hasPrefix w 4 0b1101 then .retlw (w.extractLsb' 8 2) k
  else if hasPrefix w 6 0b000111 then .addwf d f
  else if hasPrefix w 6 0b000101 then .andwf d f
  else if hasPrefix w 7 0b0000011 then .clrf f
  else if hasPrefix w 7 0b0000010 then .clrw f
  else if hasPrefix w 6 0b001001 then .comf d f
  else if hasPrefix w 6 0b000011 then .decf d f
  else if hasPrefix w 6 0b001011 then .decfsz d f
  else if hasPrefix w 6 0b001010 then .incf d f
  else if hasPrefix w 6 0b001111 then .incfsz d f
  else if hasPrefix w 6 0b000100 then .iorwf d f
  else if hasPrefix w 6 0b001000 then .movf d f
  else if hasPrefix w 7 0b0000001 then .movwf f
  else if hasPrefix w 6 0b001101 then .rlf d f
  else if hasPrefix w 6 0b001100 then .rrf d f
  else if hasPrefix w 6 0b000010 then .subwf d f
  else if hasPrefix w 6 0b001110 then .swapf d f
  else if hasPrefix w 6 0b000110 then .xorwf d f
  else if hasPrefix w 4 0b0100 then .bcf b f
  else if hasPrefix w 4 0b0101 then .bsf b f
  else if hasPrefix w 4 0b0110 then .btfsc b f
  else if hasPrefix w 4 0b0111 then .btfss b f
  else if hasPrefix w 5 0b11111 then .addlw (w.extractLsb' 8 1) k
  else if hasPrefix w 6 0b111001 then .andlw k
  else if hasPrefix w 6 0b111000 then .iorlw k
  else if hasPrefix w 4 0b1100 then .movlw (w.extractLsb' 8 2) k
  else if hasPrefix w 5 0b11110 then .sublw (w.extractLsb' 8 1) k
  else if hasPrefix w 6 0b111010 then .xorlw k
  else .undecodable k

/-- Decoding of any number: the instruction of a 14-bit word, or the rejection by name. -/
def decode (n : Nat) : Except DecodeError Instr :=
  if n < 2 ^ 14 then .ok (decodeWord (BitVec.ofNat 14 n)) else .error (.notAProgramWord n)

/-- The encoder, from the patterns of 30_encoding.md R96, bit 13 on the left. -/
def encode : Instr → ProgWord
  | .goto kbig => 0b101#3 ++ kbig
  | .call kbig => 0b100#3 ++ kbig
  | .ret => 0b00000000001000#14
  | .retlw x k => 0b1101#4 ++ x ++ k
  | .retfie => 0b00000000001001#14
  | .nop x => 0b0000000#7 ++ x
  | .clrwdt => 0b00000001100100#14
  | .sleep => 0b00000001100011#14
  | .addwf d f => 0b000111#6 ++ d.bit ++ f
  | .andwf d f => 0b000101#6 ++ d.bit ++ f
  | .clrf f => 0b0000011#7 ++ f
  | .clrw x => 0b0000010#7 ++ x
  | .comf d f => 0b001001#6 ++ d.bit ++ f
  | .decf d f => 0b000011#6 ++ d.bit ++ f
  | .decfsz d f => 0b001011#6 ++ d.bit ++ f
  | .incf d f => 0b001010#6 ++ d.bit ++ f
  | .incfsz d f => 0b001111#6 ++ d.bit ++ f
  | .iorwf d f => 0b000100#6 ++ d.bit ++ f
  | .movf d f => 0b001000#6 ++ d.bit ++ f
  | .movwf f => 0b0000001#7 ++ f
  | .rlf d f => 0b001101#6 ++ d.bit ++ f
  | .rrf d f => 0b001100#6 ++ d.bit ++ f
  | .subwf d f => 0b000010#6 ++ d.bit ++ f
  | .swapf d f => 0b001110#6 ++ d.bit ++ f
  | .xorwf d f => 0b000110#6 ++ d.bit ++ f
  | .bcf b f => 0b0100#4 ++ b ++ f
  | .bsf b f => 0b0101#4 ++ b ++ f
  | .btfsc b f => 0b0110#4 ++ b ++ f
  | .btfss b f => 0b0111#4 ++ b ++ f
  | .addlw x k => 0b11111#5 ++ x ++ k
  | .andlw k => 0b111001#6 ++ k
  | .iorlw k => 0b111000#6 ++ k
  | .movlw x k => 0b1100#4 ++ x ++ k
  | .sublw x k => 0b11110#5 ++ x ++ k
  | .xorlw k => 0b111010#6 ++ k
  | .undecodable x => 0b111011#6 ++ x

/-- The instruction an opcode-table word stands for: the word is the whole instruction (30_encoding.md
R90), so `nbits` adds nothing but a bound on the bits given. -/
def decodeTableWord (nbits w : Nat) : Option Instr :=
  match decode (w % 2 ^ nbits) with
  | .ok i => some i
  | .error _ => none

end Sys2Proof
end

