-- ==== Sys2Proof/Machine/State.lean ====
section
/-! DEFINITION. The machine's state (spec 10_state.md R20), the environment's events (00_scope.md R10),
the reasons a step can stop, and the state after power-on reset (10_state.md R52, 70_reset_and_hazards.md
R257). -/

namespace Sys2Proof.Machine

/-- The level a pin has just changed to (60_exceptions.md R221): `high` is a rising edge, `low` a
falling one. -/
inductive Level where
  | low
  | high
  deriving DecidableEq, Repr

/-- The port pins of the machine (60_exceptions.md R222 to R225). -/
inductive Pin where
  | ra0 | ra1 | ra2 | ra3 | ra4
  | rb0 | rb1 | rb2 | rb3 | rb4 | rb5 | rb6 | rb7
  deriving DecidableEq, Repr

/-- The state-changing events of 00_scope.md R10. The address and word types of `progWrite` are the
duties R76 puts on the environment. -/
inductive Event where
  /-- `Step`: one instruction (40_step_and_alu.md R110). -/
  | step
  /-- `notifyPinChanged(pin, level)` (60_exceptions.md R221). -/
  | pinChanged (pin : Pin) (level : Level)
  /-- `WdtTick` (60_exceptions.md R220). -/
  | wdtTick
  /-- `ResetEvent`, doc00's `notifyReset()` (70_reset_and_hazards.md R255). -/
  | reset
  /-- `PowerOnResetEvent` (70_reset_and_hazards.md R255). -/
  | powerOnReset
  /-- `ProgWrite(addr, word)` (20_memory.md R76). -/
  | progWrite (addr : BitVec 10) (word : ProgWord)
  /-- `ProgReset` (20_memory.md R77). -/
  | progReset
  deriving DecidableEq, Repr

/-- The state of the machine: the tuple of 10_state.md R20, and the environment's events. -/
structure State where
  /-- The accumulator (10_state.md R21). -/
  w : Byte
  /-- The program counter (10_state.md R23). -/
  pc : PcWord
  /-- The register file's backing cells but 0x02 and 0x0A, which are windows on `pc` (10_state.md R24,
  R29): the listed cells, by rising address; an unlisted cell holds `resetCell`. -/
  cells : List Host.Cell
  /-- The eight return-address slots (10_state.md R45). -/
  stk : Vector PcWord 8
  /-- The stack's write pointer (10_state.md R45). -/
  sp : BitVec 3
  /-- The shared prescaler (10_state.md R47). -/
  pre : Byte
  /-- The watchdog counter (10_state.md R20, R48). -/
  wdt : Byte
  /-- The cycle counter, unbounded (10_state.md R49). -/
  cyc : Nat
  /-- Program memory (10_state.md R51): the listed words, by rising address; an unlisted word is 0. -/
  prog : List (Nat × ProgWord)
  /-- The model's own field: the events the environment has still to issue, oldest first. With none
  listed the next event is a `Step`. DESIGN CHOICE, unsafe: log entry 1. -/
  inputs : List Event
  deriving DecidableEq, Repr

/-- What stops the machine. -/
inductive Fault where
  /-- `FetchOutOfRange(a)` (60_exceptions.md R201): the fetch of a `Step` with PC = `a` above 1023.
  Raised by `Machine.runInstruction`; safe, since the machine goes no further. -/
  | fetchOutOfRange (a : PcWord)
  deriving DecidableEq, Repr

/-- What has no meaning. No event of this machine is refused (60_exceptions.md R202). -/
inductive Refusal where
  /-- An instruction without a meaning yet, by its mnemonic. Raised by no arm of `exec`; it would be
  safe. -/
  | notModelled (mnemonic : String)
  deriving DecidableEq, Repr

/-- The state after power-on reset (70_reset_and_hazards.md R257). STATUS, OPTION, TRISA and TRISB have
their reset values because an unlisted cell does (`resetCell`). Program memory, which no reset touches,
holds no listed word (log entry 3), and no event is listed (log entry 1). -/
def State.reset : State where
  w := 0
  pc := 0
  cells := []
  stk := Vector.replicate 8 0
  sp := 0
  pre := 0
  wdt := 0
  cyc := 0
  prog := []
  inputs := []

end Sys2Proof.Machine
end

