-- ==== Sys2Proof/Machine/Layout.lean ====
section
/-! DEFINITION. The parameters of spec 00_scope.md R7, the register map of 10_state.md R30 and the bit
positions of R33, R37 and R39. The addresses of TMR0, INTCON, OPTION, TRISA, TRISB and the bit positions
but RP0 and PS are the spec's own choices (92_eei_decisions.md D2 to D5): PRESUMED, unsafe, log entry 4. -/

namespace Sys2Proof.Machine

/-- `PROG_WORDS` (R7). -/
abbrev progWords : Nat := 1024
/-- `INT_VECTOR` (R7). -/
abbrev intVector : PcWord := 0x0004#13
/-- `RESET_VECTOR` (R7). -/
abbrev resetVector : PcWord := 0#13
/-- `WDT_LIMIT` (R7). -/
abbrev wdtLimit : Byte := 128#8
/-- `BANK_OFFSET` (R7). -/
abbrev bankOffset : Byte := 128#8

/-- `ALIASED`, the addresses that differ between the banks (R7, 20_memory.md R62). -/
def isAliased (a : Byte) : Bool := a == 1 || a == 5 || a == 6 || a == 8 || a == 9

/-! Cells of 10_state.md R30. -/

abbrev tmr0Addr : Byte := 0x01#8
abbrev pclAddr : Byte := 0x02#8
abbrev statusAddr : Byte := 0x03#8
abbrev fsrAddr : Byte := 0x04#8
abbrev pclathAddr : Byte := 0x0A#8
abbrev intconAddr : Byte := 0x0B#8
abbrev optionAddr : Byte := 0x81#8
abbrev trisaAddr : Byte := 0x85#8
abbrev trisbAddr : Byte := 0x86#8

/-! Bits of STATUS (10_state.md R33). -/

abbrev cBit : Nat := 0
abbrev dcBit : Nat := 1
abbrev zBit : Nat := 2
/-- !PD, active low. -/
abbrev pdBit : Nat := 3
/-- !TO, active low. -/
abbrev toBit : Nat := 4
abbrev rp0Bit : Nat := 5

/-! Bits of INTCON (10_state.md R37). -/

abbrev rbifBit : Nat := 0
abbrev intfBit : Nat := 1
abbrev t0ifBit : Nat := 2
abbrev rbieBit : Nat := 3
abbrev inteBit : Nat := 4
abbrev t0ieBit : Nat := 5
abbrev gieBit : Nat := 7

/-! Bits of OPTION (10_state.md R39). -/

abbrev psaBit : Nat := 3
abbrev t0seBit : Nat := 4
abbrev t0csBit : Nat := 5
abbrev intedgBit : Nat := 6

/-- The value of a cell after power-on reset, which is what an unlisted cell reads as (10_state.md R52):
STATUS 0x18, OPTION 0xFF, TRISA 0x1F, TRISB 0xFF, every other cell 0. -/
def resetCell (a : Nat) : Byte :=
  if a = 0x03 then 0x18#8
  else if a = 0x81 then 0xFF#8
  else if a = 0x85 then 0x1F#8
  else if a = 0x86 then 0xFF#8
  else 0#8

/-- The value of an unlisted program word: 0x0000, what `ProgReset` leaves (20_memory.md R77). -/
def resetWord (_ : Nat) : ProgWord := 0

end Sys2Proof.Machine
end

