-- ==== Sys2Proof/Machine/Ops.lean ====
section
/-! DEFINITION. The named operations over memory and registers: the canonical lists, the cells, the two
PC windows, the addressing pipeline, program memory, the return stack, interrupt entry and return, and
the resets (spec 20_memory.md, 60_exceptions.md R210, 41_control_transfer.md R144,
70_reset_and_hazards.md). -/

namespace Sys2Proof.Machine

/-! ## Canonical lists of (address, value) pairs

Sorted by rising address, with no entry equal to `dflt` of its address, which is what an unlisted
address holds. -/

/-- What the list holds at `a`. -/
def listRead {n : Nat} (dflt : Nat → BitVec n) : List (Nat × BitVec n) → Nat → BitVec n
  | [], a => dflt a
  | (k, x) :: m, a => if a = k then x else listRead dflt m a

/-- The list without any entry for `a`. -/
def listErase {n : Nat} : List (Nat × BitVec n) → Nat → List (Nat × BitVec n)
  | [], _ => []
  | (k, x) :: m, a => if k = a then listErase m a else (k, x) :: listErase m a

/-- The list with an entry for `a` at its place in the order. -/
def listInsert {n : Nat} : List (Nat × BitVec n) → Nat → BitVec n → List (Nat × BitVec n)
  | [], a, v => [(a, v)]
  | (k, x) :: m, a, v => if a < k then (a, v) :: (k, x) :: m else (k, x) :: listInsert m a v

/-- The list with `v` at `a`; an entry equal to `dflt` is not listed. -/
def listWrite {n : Nat} (dflt : Nat → BitVec n) (m : List (Nat × BitVec n)) (a : Nat) (v : BitVec n) :
    List (Nat × BitVec n) :=
  if v = dflt a then listErase m a else listInsert (listErase m a) a v

/-- Canonical from address `lo` up. -/
def canonicalFrom {n : Nat} (dflt : Nat → BitVec n) : Nat → List (Nat × BitVec n) → Bool
  | _, [] => true
  | lo, (k, x) :: m => decide (lo ≤ k) && x != dflt k && canonicalFrom dflt (k + 1) m

/-- The canonical form of the register file: rising addresses 0..255, no cell at its reset value, and no
backing for the two PC windows (10_state.md R20). -/
def Memory.wf (m : List Host.Cell) : Bool :=
  canonicalFrom resetCell 0 m
    && m.all (fun e => decide (e.1 < 256) && e.1 != pclAddr.toNat && e.1 != pclathAddr.toNat)

/-- The canonical form of program memory: rising addresses 0..1023, no word 0 (10_state.md R51). -/
def ProgMemory.wf (m : List (Nat × ProgWord)) : Bool :=
  canonicalFrom resetWord 0 m && m.all (fun e => decide (e.1 < progWords))

/-! ## Bits of a byte -/

/-- `v` with bit `j` replaced by `b` (20_memory.md R69). -/
def withBit (v : Byte) (j : Nat) (b : Bool) : Byte :=
  if b then v ||| ((1 : Byte) <<< j) else v &&& ~~~((1 : Byte) <<< j)

/-! ## Physical cells (20_memory.md R64, R65, R73) -/

/-- `cell[p]`, the hardware's direct access (20_memory.md R73). -/
def State.cell (s : State) (p : Byte) : Byte := listRead resetCell s.cells p.toNat

/-- `cell[p] <- v`, the hardware's direct access (20_memory.md R73). -/
def State.setCell (s : State) (p v : Byte) : State :=
  { s with cells := listWrite resetCell s.cells p.toNat v }

/-- `cell[p][j]`. -/
def State.cellBit (s : State) (p : Byte) (j : Nat) : Bool := (s.cell p).getLsbD j

/-- `cell[p][j] <- b`. -/
def State.setCellBit (s : State) (p : Byte) (j : Nat) (b : Bool) : State :=
  s.setCell p (withBit (s.cell p) j b)

/-- `CellRead(p)` with the windows on PC (20_memory.md R64). -/
def State.cellRead (s : State) (p : Byte) : Byte :=
  if p = pclAddr then s.pc.extractLsb' 0 8
  else if p = pclathAddr then (s.pc.extractLsb' 8 5).setWidth 8
  else s.cell p

/-- `CellWrite(p, v)` with the windows on PC (20_memory.md R65). DESIGN CHOICE of the spec (D7): log
entry 6. -/
def State.cellWrite (s : State) (p v : Byte) : State :=
  if p = pclAddr then { s with pc := s.pc.extractLsb' 8 5 ++ v }
  else if p = pclathAddr then { s with pc := v.extractLsb' 0 5 ++ s.pc.extractLsb' 0 8 }
  else s.setCell p v

/-- `W <- v` (10_state.md R21). -/
def State.setW (s : State) (v : Byte) : State := { s with w := v }

/-! ## The access pipeline (20_memory.md R62 to R69) -/

/-- The bank shift for a named bank (R62, and `readBank` of 60_exceptions.md R236). -/
def bankAdjust (bank : Bool) (a : Byte) : Byte :=
  if bank && isAliased a then a + bankOffset else a

/-- `AdjustAdr(a)`: the bank is RP0 (R62). -/
def State.adjustAdr (s : State) (a : Byte) : Byte := bankAdjust (s.cellBit statusAddr rp0Bit) a

/-- `Resolve(a)`: bank adjustment, then address 0 is replaced by FSR once (R63, R70). -/
def State.resolve (s : State) (a : Byte) : Byte :=
  let a1 := s.adjustAdr a
  if a1 = 0#8 then s.cell fsrAddr else a1

/-- `MemRead(a, 1)` (R66). -/
def State.memRead (s : State) (a : Byte) : Byte := s.cellRead (s.resolve a)

/-- `MemWrite(a, 1, v)` (R67). -/
def State.memWrite (s : State) (a v : Byte) : State := s.cellWrite (s.resolve a) v

/-- `BitRead(a, b)` (R68). -/
def State.bitRead (s : State) (a : Byte) (b : Nat) : Bool := (s.memRead a).getLsbD b

/-- `BitWrite(a, b, v)` (R69): the other seven bits are written back as read. -/
def State.bitWrite (s : State) (a : Byte) (b : Nat) (v : Bool) : State :=
  let p := s.resolve a
  s.cellWrite p (withBit (s.cellRead p) b v)

/-! ## Program memory (20_memory.md R75 to R77) -/

/-- `ProgRead(a)` where the address exists (R75); `none` is the fault of `runInstruction`. -/
def State.progRead (s : State) (a : PcWord) : Option ProgWord :=
  if a.toNat < progWords then some (listRead resetWord s.prog a.toNat) else none

/-- `ProgWrite(addr, word)` (R76). -/
def State.progWrite (s : State) (addr : BitVec 10) (word : ProgWord) : State :=
  { s with prog := listWrite resetWord s.prog addr.toNat word }

/-- `ProgReset` (R77). -/
def State.progReset (s : State) : State := { s with prog := [] }

/-! ## The return stack (20_memory.md R80 to R82) -/

/-- `Push(v)` (R80). -/
def State.push (s : State) (v : PcWord) : State :=
  { s with stk := s.stk.set s.sp.toNat v s.sp.isLt, sp := s.sp + 1 }

/-- The value `Pop()` returns (R81). -/
def State.popValue (s : State) : PcWord := s.stk[(s.sp - 1).toNat]'(s.sp - 1).isLt

/-- The state `Pop()` leaves (R81); the slot keeps its value. -/
def State.popState (s : State) : State := { s with sp := s.sp - 1 }

/-- `PC <- Pop()`, as in RETURN, RETLW and RETFIE. -/
def State.popPc (s : State) : State := { s.popState with pc := s.popValue }

/-! ## Interrupt entry and return (60_exceptions.md R210, 41_control_transfer.md R144) -/

/-- `InterruptEntry()` (R210): GIE is cleared, the full PC is pushed, PC goes to the vector, 1 cycle. -/
def State.interruptEntry (s : State) : State :=
  let s1 := (s.setCellBit intconAddr gieBit false).push s.pc
  { s1 with pc := intVector, cyc := s.cyc + 1 }

/-- The taking of an interrupt whose INTCON flag is `flag` (R212, R223, R224): the flag is set, GIE is
cleared, the entry follows. -/
def State.takeInterrupt (s : State) (flag : Nat) : State :=
  ((s.setCellBit intconAddr flag true).setCellBit intconAddr gieBit false).interruptEntry

/-- The return from an interrupt (R144, R230): PC is popped, GIE is set. -/
def State.returnFromInterrupt (s : State) : State := s.popPc.setCellBit intconAddr gieBit true

/-! ## Resets (70_reset_and_hazards.md R250, R252, R254) -/

/-- `Reset()` (R252): C, DC, Z, W, the other cells and program memory stay (R253). -/
def State.softReset (s : State) : State :=
  let s1 := { s with stk := Vector.replicate 8 0, sp := 0, pre := 0, cyc := 0, wdt := 0, pc := resetVector }
  let s2 := s1.setCell statusAddr ((s1.cell statusAddr &&& 0x07#8) ||| 0x18#8)
  (((s2.setCell optionAddr 0xFF#8).setCell trisaAddr 0x1F#8).setCell trisbAddr 0xFF#8).setCell intconAddr 0x00#8

/-- Every physical cell is written with 0 (R250, R251); cells 0x02 and 0x0A are PC. -/
def State.zeroCells (s : State) : State :=
  (List.range 256).foldl (fun t p => t.cellWrite (BitVec.ofNat 8 p) 0#8) s

/-- `PowerOnReset()` (R250). -/
def State.powerOnReset (s : State) : State := (s.zeroCells.setW 0).softReset

end Sys2Proof.Machine
end

