-- ==== Sys2Proof/Machine/Flags.lean ====
section
/-! DEFINITION. The ALU and the flag primitives (spec 40_step_and_alu.md R120 to R128). Arithmetic is
computed over the natural numbers and narrowed at the end (R12, R129). -/

namespace Sys2Proof.Machine

/-- What ADD and SUB return: `(r, c, dc, z)` (R120). -/
structure AluResult where
  value : Byte
  c : Bool
  dc : Bool
  z : Bool
  deriving DecidableEq, Repr

/-- `ADD(a, b)` for b in 0..256 (R120). -/
def aluAdd (a : Byte) (b : Nat) : AluResult :=
  let r := BitVec.ofNat 8 (a.toNat + b)
  { value := r
    c := decide (256 ≤ a.toNat + b)
    dc := decide (16 ≤ a.toNat % 16 + b % 16)
    z := r == 0 }

/-- `SUB(a, b) = ADD(a, 256 - b)`, the second operand a natural number (R121, D16). -/
def aluSub (a b : Byte) : AluResult := aluAdd a (256 - b.toNat)

/-- What a rotate returns: `(r, cout)` (R123). -/
structure RotResult where
  value : Byte
  c : Bool
  deriving DecidableEq, Repr

/-- `RLC(v, cin)` (R123). -/
def aluRlc (v : Byte) (cin : Bool) : RotResult :=
  { value := BitVec.ofNat 8 (v.toNat * 2 % 256 + cin.toNat), c := v.getLsbD 7 }

/-- `RRC(v, cin)` (R124). -/
def aluRrc (v : Byte) (cin : Bool) : RotResult :=
  { value := BitVec.ofNat 8 (v.toNat / 2 + 128 * cin.toNat), c := v.getLsbD 0 }

/-- `COM(v) = 255 - v` (R125). -/
def aluCom (v : Byte) : Byte := BitVec.ofNat 8 (255 - v.toNat)

/-- `INC(v)` (R125). -/
def aluInc (v : Byte) : Byte := BitVec.ofNat 8 ((v.toNat + 1) % 256)

/-- `DEC(v)` (R125). -/
def aluDec (v : Byte) : Byte := BitVec.ofNat 8 ((v.toNat + 255) % 256)

/-- `SWAP(v) = v[3:0] : v[7:4]` (R125). -/
def aluSwap (v : Byte) : Byte := v.extractLsb' 0 4 ++ v.extractLsb' 4 4

/-- `SetZ(z)` (R126). -/
def State.setZ (s : State) (z : Bool) : State := s.setCellBit statusAddr zBit z

/-- `SetC(c)` (R128). -/
def State.setC (s : State) (c : Bool) : State := s.setCellBit statusAddr cBit c

/-- `SetCDCZ(c, dc, z)` (R127). -/
def State.setCDCZ (s : State) (c dc z : Bool) : State :=
  ((s.setCellBit statusAddr cBit c).setCellBit statusAddr dcBit dc).setCellBit statusAddr zBit z

/-- The carry flag, as the rotates read it (R123). -/
def State.carry (s : State) : Bool := s.cellBit statusAddr cBit

end Sys2Proof.Machine
end

