-- ==== Sys2Proof/Machine/Operands.lean ====
section
/-! DEFINITION. The operand forms of the instructions (spec 20_memory.md R71, 40_step_and_alu.md R118,
30_encoding.md R93). -/

namespace Sys2Proof.Machine

/-- The 7-bit field `f` as a register address (30_encoding.md R93: not extended beyond the zeros above). -/
def fileAddr (f : BitVec 7) : Byte := f.setWidth 8

/-- The physical cell `f` names (20_memory.md R63, R71). -/
def State.fileCell (s : State) (f : BitVec 7) : Byte := s.resolve (fileAddr f)

/-- `MemRead(f, 1)`. -/
def State.readFile (s : State) (f : BitVec 7) : Byte := s.memRead (fileAddr f)

/-- `MemWrite(f, 1, v)`. -/
def State.writeFile (s : State) (f : BitVec 7) (v : Byte) : State := s.memWrite (fileAddr f) v

/-- `WriteDest(d, f, v)` (40_step_and_alu.md R118). -/
def State.writeDest (s : State) (d : Dest) (f : BitVec 7) (v : Byte) : State :=
  match d with
  | .w => s.setW v
  | .f => s.writeFile f v

/-- `BitRead(f, b)` (20_memory.md R68). -/
def State.readFileBit (s : State) (f : BitVec 7) (b : BitVec 3) : Bool := s.bitRead (fileAddr f) b.toNat

/-- `BitWrite(f, b, v)` (20_memory.md R69). -/
def State.writeFileBit (s : State) (f : BitVec 7) (b : BitVec 3) (v : Bool) : State :=
  s.bitWrite (fileAddr f) b.toNat v

/-- `zext_13(kbig)` (41_control_transfer.md R140, D10). -/
def jumpTarget (kbig : BitVec 11) : PcWord := kbig.setWidth 13

end Sys2Proof.Machine
end

