-- ==== Sys2Proof/Machine/Timer.lean ====
section
/-! DEFINITION. Timer0, the prescaler and the watchdog (spec 60_exceptions.md R212 to R220). -/

namespace Sys2Proof.Machine

/-- `INTCON` has both the enable `enable` and GIE set (60_exceptions.md R205). -/
def State.interruptsEnabled (s : State) (enable : Nat) : Bool :=
  s.cellBit intconAddr enable && s.cellBit intconAddr gieBit

/-- `Tmr0Increment()` (R212). -/
def State.tmr0Increment (s : State) : State :=
  let t := s.cell tmr0Addr
  let s1 := s.setCell tmr0Addr (t + 1)
  if t == 0xFF#8 && s1.interruptsEnabled t0ieBit then s1.takeInterrupt t0ifBit else s1

/-- `WdtIncrement()` with the watchdog reset (R216, 70_reset_and_hazards.md R254). -/
def State.wdtIncrement (s : State) : State :=
  let s1 := { s with wdt := s.wdt + 1 }
  if s1.wdt = wdtLimit then
    (s1.softReset.setCellBit statusAddr toBit false).setCellBit statusAddr pdBit true
  else s1

/-- `ps = cell[0x81][2:0]` (R214). -/
def State.prescalerRate (s : State) : Nat := (s.cell optionAddr).toNat % 8

/-- The prescaler's threshold: `2^ps` for the watchdog, `2^(ps + 1)` for Timer0 (R214). -/
def State.prescalerThreshold (s : State) : Nat :=
  if s.cellBit optionAddr psaBit then 2 ^ s.prescalerRate else 2 ^ (s.prescalerRate + 1)

/-- `PrescalerTick()` (R214, D14). -/
def State.prescalerTick (s : State) : State :=
  if s.prescalerThreshold ≤ s.pre.toNat + 1 then
    let s1 := { s with pre := 0 }
    if s.cellBit optionAddr psaBit then s1.wdtIncrement else s1.tmr0Increment
  else { s with pre := s.pre + 1 }

/-- `WdtTick` (R220). -/
def State.wdtTick (s : State) : State :=
  if s.cellBit optionAddr psaBit then s.prescalerTick else s.wdtIncrement

end Sys2Proof.Machine
end

