-- ==== Sys2Proof/Machine/Cycle.lean ====
section
/-! DEFINITION. The end of a `Step`: phases 5 and 6 of spec 40_step_and_alu.md R110 (cycle accounting
R114, PC update R115, timer tick R116, branching instructions R117). -/

namespace Sys2Proof.Machine

/-- Phases 5 and 6 of a non-branching instruction: CYC, PC + 1 (+ 1 more when it skips), then the timer
tick when T0CS is clear (R114 to R116). -/
def State.retire (s : State) (skip : Bool) (cycles : Nat) : State :=
  let s1 := { s with cyc := s.cyc + cycles, pc := s.pc + 1 + (if skip then 1 else 0) }
  if s1.cellBit optionAddr t0csBit then s1 else s1.tmr0Increment

/-- Phase 5 of a branching instruction: 2 cycles, no increment of PC, no tick (R114, R117). -/
def State.retireBranch (s : State) : State := { s with cyc := s.cyc + 2 }

/-- The cycles of a conditional skip: 2 when taken, else 1 (R114). -/
def skipCycles (skip : Bool) : Nat := if skip then 2 else 1

/-- A non-branching instruction whose Execute phase left `s`. -/
def finish (cycles : Nat) (s : State) : Host.Outcome State Fault Refusal := .next (s.retire false cycles)

/-- A skip instruction whose Execute phase left `s`. -/
def finishSkip (skip : Bool) (s : State) : Host.Outcome State Fault Refusal :=
  .next (s.retire skip (skipCycles skip))

/-- A branching instruction whose Execute phase left `s`. -/
def finishBranch (s : State) : Host.Outcome State Fault Refusal := .next s.retireBranch

end Sys2Proof.Machine
end

