-- ==== Sys2Proof/Machine/BitOriented.lean ====
section
/-! DEFINITION. Bit-oriented file register operations (spec 44_bit_oriented.md). None writes a flag as a
side effect. -/

namespace Sys2Proof.Machine

/-- BCF (R180). -/
def execBcf (b : BitVec 3) (f : BitVec 7) (s : State) : Host.Outcome State Fault Refusal :=
  finish 1 (s.writeFileBit f b false)

/-- BSF (R181). -/
def execBsf (b : BitVec 3) (f : BitVec 7) (s : State) : Host.Outcome State Fault Refusal :=
  finish 1 (s.writeFileBit f b true)

/-- BTFSC (R182). -/
def execBtfsc (b : BitVec 3) (f : BitVec 7) (s : State) : Host.Outcome State Fault Refusal :=
  finishSkip (!s.readFileBit f b) s

/-- BTFSS (R183). -/
def execBtfss (b : BitVec 3) (f : BitVec 7) (s : State) : Host.Outcome State Fault Refusal :=
  finishSkip (s.readFileBit f b) s

end Sys2Proof.Machine
end

