-- ==== Sys2Proof/Machine/ByteOriented.lean ====
section
/-! DEFINITION. Byte-oriented file register operations (spec 43_byte_oriented.md). Every meaning reads its
operands, computes, writes its destination, then its flags (40_step_and_alu.md R119, D17; log entry 7). -/

namespace Sys2Proof.Machine

/-- `WriteDest(d, f, r)`, then `SetZ(r = 0)`, one cycle: the shape of the Z-only instructions. -/
def finishZ (d : Dest) (f : BitVec 7) (r : Byte) (s : State) : Host.Outcome State Fault Refusal :=
  finish 1 ((s.writeDest d f r).setZ (r == 0))

/-- `WriteDest(d, f, r)`, then `SetCDCZ`, one cycle: the shape of ADDWF and SUBWF. -/
def finishCDCZ (d : Dest) (f : BitVec 7) (r : AluResult) (s : State) : Host.Outcome State Fault Refusal :=
  finish 1 ((s.writeDest d f r.value).setCDCZ r.c r.dc r.z)

/-- `WriteDest(d, f, r)`, then `SetC`, one cycle: the shape of the rotates. -/
def finishC (d : Dest) (f : BitVec 7) (r : RotResult) (s : State) : Host.Outcome State Fault Refusal :=
  finish 1 ((s.writeDest d f r.value).setC r.c)

/-- ADDWF (R160). -/
def execAddwf (d : Dest) (f : BitVec 7) (s : State) : Host.Outcome State Fault Refusal :=
  finishCDCZ d f (aluAdd s.w (s.readFile f).toNat) s

/-- ANDWF (R161). -/
def execAndwf (d : Dest) (f : BitVec 7) (s : State) : Host.Outcome State Fault Refusal :=
  finishZ d f (s.w &&& s.readFile f) s

/-- CLRF (R162): the old value is not read. -/
def execClrf (f : BitVec 7) (s : State) : Host.Outcome State Fault Refusal :=
  finish 1 ((s.writeFile f 0).setZ true)

/-- CLRW (R163). -/
def execClrw (s : State) : Host.Outcome State Fault Refusal :=
  finish 1 ((s.setW 0).setZ true)

/-- COMF (R164). -/
def execComf (d : Dest) (f : BitVec 7) (s : State) : Host.Outcome State Fault Refusal :=
  finishZ d f (aluCom (s.readFile f)) s

/-- DECF (R165). -/
def execDecf (d : Dest) (f : BitVec 7) (s : State) : Host.Outcome State Fault Refusal :=
  finishZ d f (aluDec (s.readFile f)) s

/-- DECFSZ (R166): no flag is written. -/
def execDecfsz (d : Dest) (f : BitVec 7) (s : State) : Host.Outcome State Fault Refusal :=
  let r := aluDec (s.readFile f)
  finishSkip (r == 0) (s.writeDest d f r)

/-- INCF (R167). -/
def execIncf (d : Dest) (f : BitVec 7) (s : State) : Host.Outcome State Fault Refusal :=
  finishZ d f (aluInc (s.readFile f)) s

/-- INCFSZ (R168): no flag is written. -/
def execIncfsz (d : Dest) (f : BitVec 7) (s : State) : Host.Outcome State Fault Refusal :=
  let r := aluInc (s.readFile f)
  finishSkip (r == 0) (s.writeDest d f r)

/-- IORWF (R169). -/
def execIorwf (d : Dest) (f : BitVec 7) (s : State) : Host.Outcome State Fault Refusal :=
  finishZ d f (s.w ||| s.readFile f) s

/-- MOVF (R170). -/
def execMovf (d : Dest) (f : BitVec 7) (s : State) : Host.Outcome State Fault Refusal :=
  finishZ d f (s.readFile f) s

/-- MOVWF (R171). -/
def execMovwf (f : BitVec 7) (s : State) : Host.Outcome State Fault Refusal :=
  finish 1 (s.writeFile f s.w)

/-- RLF (R172). -/
def execRlf (d : Dest) (f : BitVec 7) (s : State) : Host.Outcome State Fault Refusal :=
  finishC d f (aluRlc (s.readFile f) s.carry) s

/-- RRF (R173). -/
def execRrf (d : Dest) (f : BitVec 7) (s : State) : Host.Outcome State Fault Refusal :=
  finishC d f (aluRrc (s.readFile f) s.carry) s

/-- SUBWF (R174): the file value is the minuend. -/
def execSubwf (d : Dest) (f : BitVec 7) (s : State) : Host.Outcome State Fault Refusal :=
  finishCDCZ d f (aluSub (s.readFile f) s.w) s

/-- SWAPF (R175). -/
def execSwapf (d : Dest) (f : BitVec 7) (s : State) : Host.Outcome State Fault Refusal :=
  finish 1 (s.writeDest d f (aluSwap (s.readFile f)))

/-- XORWF (R176). -/
def execXorwf (d : Dest) (f : BitVec 7) (s : State) : Host.Outcome State Fault Refusal :=
  finishZ d f (s.readFile f ^^^ s.w) s

end Sys2Proof.Machine
end

