-- ==== Sys2Proof/Machine/Control.lean ====
section
/-! DEFINITION. Control transfer: GOTO, CALL, RETURN, RETLW, RETFIE (spec 41_control_transfer.md). -/

namespace Sys2Proof.Machine

/-- GOTO (R140). -/
def execGoto (kbig : BitVec 11) (s : State) : Host.Outcome State Fault Refusal :=
  finishBranch { s with pc := jumpTarget kbig }

/-- CALL (R141): the return address is the address after the CALL. -/
def execCall (kbig : BitVec 11) (s : State) : Host.Outcome State Fault Refusal :=
  finishBranch { s.push (s.pc + 1) with pc := jumpTarget kbig }

/-- RETURN (R142). -/
def execRet (s : State) : Host.Outcome State Fault Refusal :=
  finishBranch s.popPc

/-- RETLW (R143). -/
def execRetlw (k : BitVec 8) (s : State) : Host.Outcome State Fault Refusal :=
  finishBranch (s.setW k).popPc

/-- RETFIE (R144). -/
def execRetfie (s : State) : Host.Outcome State Fault Refusal :=
  finishBranch s.returnFromInterrupt

end Sys2Proof.Machine
end

