-- ==== Sys2Proof/Machine/Literal.lean ====
section
/-! DEFINITION. Literal operations (spec 45_literal.md): W and the 8-bit literal `k`. -/

namespace Sys2Proof.Machine

/-- `W <- r`, then `SetZ(r = 0)`, one cycle. -/
def finishLiteralZ (r : Byte) (s : State) : Host.Outcome State Fault Refusal :=
  finish 1 ((s.setW r).setZ (r == 0))

/-- `W <- r`, then `SetCDCZ`, one cycle. -/
def finishLiteralCDCZ (r : AluResult) (s : State) : Host.Outcome State Fault Refusal :=
  finish 1 ((s.setW r.value).setCDCZ r.c r.dc r.z)

/-- ADDLW (R190). -/
def execAddlw (k : BitVec 8) (s : State) : Host.Outcome State Fault Refusal :=
  finishLiteralCDCZ (aluAdd s.w k.toNat) s

/-- ANDLW (R191). -/
def execAndlw (k : BitVec 8) (s : State) : Host.Outcome State Fault Refusal :=
  finishLiteralZ (s.w &&& k) s

/-- IORLW (R192). -/
def execIorlw (k : BitVec 8) (s : State) : Host.Outcome State Fault Refusal :=
  finishLiteralZ (s.w ||| k) s

/-- MOVLW (R193): no flag is written. -/
def execMovlw (k : BitVec 8) (s : State) : Host.Outcome State Fault Refusal :=
  finish 1 (s.setW k)

/-- SUBLW (R194): the literal is the minuend. -/
def execSublw (k : BitVec 8) (s : State) : Host.Outcome State Fault Refusal :=
  finishLiteralCDCZ (aluSub k s.w) s

/-- XORLW (R195). -/
def execXorlw (k : BitVec 8) (s : State) : Host.Outcome State Fault Refusal :=
  finishLiteralZ (s.w ^^^ k) s

end Sys2Proof.Machine
end

