-- ==== Sys2Proof/Machine/System.lean ====
section
/-! DEFINITION. The system family: NOP, CLRWDT, SLEEP and the undecodable word (spec 42_system.md). -/

namespace Sys2Proof.Machine

/-- NOP (R150). -/
def execNop (s : State) : Host.Outcome State Fault Refusal :=
  finish 1 s

/-- CLRWDT (R151): the prescaler is not cleared (D25). -/
def execClrwdt (s : State) : Host.Outcome State Fault Refusal :=
  finish 1 { (s.setCellBit statusAddr toBit true).setCellBit statusAddr pdBit true with wdt := 0 }

/-- SLEEP (R152): two cycles and nothing else. -/
def execSleep (s : State) : Host.Outcome State Fault Refusal :=
  finish 2 s

/-- The undecodable word (R156): a no-op of one cycle (D15; log entry 11). -/
def execUndecodable (s : State) : Host.Outcome State Fault Refusal :=
  finish 1 s

end Sys2Proof.Machine
end

