-- ==== Sys2Proof/Machine/Dispatch.lean ====
section
/-! DEFINITION. The dispatch of the instructions to their meanings: phases 4 to 6 of `Step` (spec
40_step_and_alu.md R110, R113), one arm per row of the opcode table. -/

namespace Sys2Proof.Machine

def exec (i : Instr) (s : State) : Host.Outcome State Fault Refusal :=
  match i with
  | .goto kbig => Sys2Proof.Machine.execGoto kbig s
  | .call kbig => Sys2Proof.Machine.execCall kbig s
  | .ret => Sys2Proof.Machine.execRet s
  | .retlw _ k => Sys2Proof.Machine.execRetlw k s
  | .retfie => Sys2Proof.Machine.execRetfie s
  | .nop _ => Sys2Proof.Machine.execNop s
  | .clrwdt => Sys2Proof.Machine.execClrwdt s
  | .sleep => Sys2Proof.Machine.execSleep s
  | .addwf d f => Sys2Proof.Machine.execAddwf d f s
  | .andwf d f => Sys2Proof.Machine.execAndwf d f s
  | .clrf f => Sys2Proof.Machine.execClrf f s
  | .clrw _ => Sys2Proof.Machine.execClrw s
  | .comf d f => Sys2Proof.Machine.execComf d f s
  | .decf d f => Sys2Proof.Machine.execDecf d f s
  | .decfsz d f => Sys2Proof.Machine.execDecfsz d f s
  | .incf d f => Sys2Proof.Machine.execIncf d f s
  | .incfsz d f => Sys2Proof.Machine.execIncfsz d f s
  | .iorwf d f => Sys2Proof.Machine.execIorwf d f s
  | .movf d f => Sys2Proof.Machine.execMovf d f s
  | .movwf f => Sys2Proof.Machine.execMovwf f s
  | .rlf d f => Sys2Proof.Machine.execRlf d f s
  | .rrf d f => Sys2Proof.Machine.execRrf d f s
  | .subwf d f => Sys2Proof.Machine.execSubwf d f s
  | .swapf d f => Sys2Proof.Machine.execSwapf d f s
  | .xorwf d f => Sys2Proof.Machine.execXorwf d f s
  | .bcf b f => Sys2Proof.Machine.execBcf b f s
  | .bsf b f => Sys2Proof.Machine.execBsf b f s
  | .btfsc b f => Sys2Proof.Machine.execBtfsc b f s
  | .btfss b f => Sys2Proof.Machine.execBtfss b f s
  | .addlw _ k => Sys2Proof.Machine.execAddlw k s
  | .andlw k => Sys2Proof.Machine.execAndlw k s
  | .iorlw k => Sys2Proof.Machine.execIorlw k s
  | .movlw _ k => Sys2Proof.Machine.execMovlw k s
  | .sublw _ k => Sys2Proof.Machine.execSublw k s
  | .xorlw k => Sys2Proof.Machine.execXorlw k s
  | .undecodable _ => Sys2Proof.Machine.execUndecodable s

end Sys2Proof.Machine
end

