-- ==== Sys2Proof/Machine/Events.lean ====
section
/-! DEFINITION. The events of the machine: one instruction (phases 1 to 3 of spec 40_step_and_alu.md
R110, then `exec`), the pin events (60_exceptions.md R221 to R225), and the delivery of any event
(00_scope.md R9, R10). -/

namespace Sys2Proof.Machine

/-- One `Step`: fetch at PC, decode, execute (40_step_and_alu.md R110 to R113); a PC above 1023 is the
machine fault, and nothing changes (60_exceptions.md R201, D9). -/
def runInstruction (s : State) : Host.Outcome State Fault Refusal :=
  match s.progRead s.pc with
  | some w => exec (decodeWord w) s
  | none => .fault (.fetchOutOfRange s.pc)

/-- The level an edge-select bit picks: 1 means `one`, 0 the other level (60_exceptions.md R222, R223). -/
def Level.isHigh : Level → Bool
  | .low => false
  | .high => true

/-- `Ra4Edge(level)` (60_exceptions.md R222). T0SE = 1 selects the falling edge: PRESUMED by the spec
(D6), unsafe, log entry 5. -/
def State.ra4Edge (s : State) (level : Level) : State :=
  let matching := s.cellBit optionAddr t0seBit != level.isHigh
  if s.cellBit optionAddr t0csBit && matching then
    if s.cellBit optionAddr psaBit then s.tmr0Increment else s.prescalerTick
  else s

/-- `Rb0Edge(level)` (60_exceptions.md R223). INTEDG = 1 selects the rising edge (D6, log entry 5). -/
def State.rb0Edge (s : State) (level : Level) : State :=
  let matching := s.cellBit optionAddr intedgBit == level.isHigh
  if matching && s.interruptsEnabled inteBit then s.takeInterrupt intfBit else s

/-- `RbChange(pin, level)`, for any of RB4..RB7 and any level (60_exceptions.md R224). -/
def State.rbChange (s : State) : State :=
  if s.interruptsEnabled rbieBit then s.takeInterrupt rbifBit else s

/-- `notifyPinChanged(pin, level)` (60_exceptions.md R221), routed as in R222 to R225. -/
def State.pinChanged (s : State) (pin : Pin) (level : Level) : State :=
  match pin with
  | .ra4 => s.ra4Edge level
  | .rb0 => s.rb0Edge level
  | .rb4 | .rb5 | .rb6 | .rb7 => s.rbChange
  | .ra0 | .ra1 | .ra2 | .ra3 | .rb1 | .rb2 | .rb3 => s

/-- The effect of one event (00_scope.md R10). -/
def deliver (e : Event) (s : State) : Host.Outcome State Fault Refusal :=
  match e with
  | .step => runInstruction s
  | .pinChanged pin level => .next (s.pinChanged pin level)
  | .wdtTick => .next s.wdtTick
  | .reset => .next s.softReset
  | .powerOnReset => .next s.powerOnReset
  | .progWrite addr word => .next (s.progWrite addr word)
  | .progReset => .next s.progReset

/-- The event the machine handles next: the first one listed, else a `Step` (log entry 1). -/
def State.nextEvent (s : State) : Event :=
  match s.inputs with
  | [] => .step
  | e :: _ => e

/-- The state in which the next event is handled: that event is no longer listed. -/
def State.popInput (s : State) : State := { s with inputs := s.inputs.tail }

end Sys2Proof.Machine
end

