-- ==== Sys2Proof/Machine/Step.lean ====
section
/-! DEFINITION. The machine's step, and the placing of an instruction where it fetches. -/

namespace Sys2Proof.Machine

/-- One event of the machine: the next one the environment has listed, or a `Step` (spec 00_scope.md R9,
R10; log entry 1). No state ends a run of itself (60_exceptions.md R239, D23; log entry 14). -/
def step (s : State) : Host.Outcome State Fault Refusal := deliver s.nextEvent s.popInput

/-- `s` with the word `w` where the next step fetches: at PC, or at the reset vector when PC is above
1023 (no fetch is possible there); no event is listed before it. The word is the whole instruction, so
`nbits` only bounds the bits given. -/
def State.withFetchWord (s : State) (nbits w : Nat) : State :=
  let pc := if s.pc.toNat < progWords then s.pc else resetVector
  let word := BitVec.ofNat 14 (w % 2 ^ nbits)
  { s with pc := pc, prog := listWrite resetWord s.prog pc.toNat word, inputs := [] }

end Sys2Proof.Machine
end

