-- ==== Sys2Proof/Config.lean ====
section
/-! DEFINITION. The one value the spec leaves open to an implementation, as a constant without a body.
The parameters of 00_scope.md R7 that have a value stand in Machine/Layout.lean. The open parameter
`WDT_TICK_POLICY` is the environment's (the events in `State.inputs`), and `PROG_IMAGE` is `State.prog`. -/

namespace Sys2Proof

/-- FREE VALUE (93_implementation_defined.md U12, 60_exceptions.md R236): what the bank-explicit
inspection of address 0 answers, for the `draw`-th such inspection and the bank asked for. Nothing
constrains it. Only `Machine.State.inspectBank` uses it; no step does. UNVERIFIED, safe: log entry 12. -/
opaque Config.readBankZero : Nat → Bool → Byte

end Sys2Proof
end

