-- ==== Sys2Proof/Machine/Inspect.lean ====
section
/-! DEFINITION. Inspection by the environment (spec 10_state.md R50, 60_exceptions.md R236): functions of
the state that change nothing (D35). The argument types are the ranges R236 sets. -/

namespace Sys2Proof.Machine

/-- PC. -/
def State.inspectPc (s : State) : PcWord := s.pc

/-- The accumulator. -/
def State.inspectW (s : State) : Byte := s.w

/-- The STATUS byte. -/
def State.inspectStatus (s : State) : Byte := s.cell statusAddr

/-- The cycle counter. -/
def State.inspectCyc (s : State) : Nat := s.cyc

/-- The watchdog counter. -/
def State.inspectWdt (s : State) : Byte := s.wdt

/-- A register byte, bank-aware: `MemRead` with the current RP0. -/
def State.inspectByte (s : State) (a : Byte) : Byte := s.memRead a

/-- A register bit, bank-aware. -/
def State.inspectBit (s : State) (a : Byte) (b : Fin 8) : Bool := s.bitRead a b

/-- A register byte, bank-explicit: `readBank(addr, bank)`. For address 0 the answer is a free value,
fresh for each `draw` (93_implementation_defined.md U12; log entry 12). -/
def State.inspectBank (s : State) (draw : Nat) (a : Byte) (bank : Bool) : Byte :=
  if a = 0 then Config.readBankZero draw bank else s.cellRead (bankAdjust bank a)

/-- A register bit, bank-explicit. -/
def State.inspectBankBit (s : State) (draw : Nat) (a : Byte) (bank : Bool) (b : Fin 8) : Bool :=
  (s.inspectBank draw a bank).getLsbD b

/-- `peek(i)`: a stack slot, whatever the pointer holds. -/
def State.peek (s : State) (i : Fin 8) : PcWord := s.stk[i]

end Sys2Proof.Machine
end

