-- ==== Sys2Proof/Safety.lean ====
section
/-! DEFINITION. The terms the claims are stated in: the invariant of the machine, when a step cannot
fault, what an update or an interrupt changes and leaves, and what an instruction may write. -/

namespace Sys2Proof.Machine

/-! ## States -/

/-- The invariant: the register file and program memory are in canonical form over their address spaces
(spec 10_state.md R20, R51), and the watchdog counter is below its limit (R48). -/
def State.Inv (s : State) : Prop :=
  Memory.wf s.cells = true ∧ ProgMemory.wf s.prog = true ∧ s.wdt.toNat < 128

/-- The next event cannot fault: it is no `Step`, or PC is in program memory (60_exceptions.md R201). -/
def State.canStep (s : State) : Prop := s.nextEvent = .step → s.pc.toNat < 1024

/-- The two states agree on everything but PC, CYC, the return stack, the cells and W. -/
def SameHidden (s t : State) : Prop :=
  t.pre = s.pre ∧ t.wdt = s.wdt ∧ t.prog = s.prog ∧ t.inputs = s.inputs

/-- The two states have the same return stack. -/
def SameStack (s t : State) : Prop := t.sp = s.sp ∧ ∀ i : Fin 8, t.peek i = s.peek i

/-- `t`'s return stack is `s`'s with `v` pushed (20_memory.md R80). -/
def Pushed (s t : State) (v : PcWord) : Prop :=
  t.sp.toNat = (s.sp.toNat + 1) % 8 ∧ ∀ i : Fin 8, t.peek i = if i.val = s.sp.toNat then v else s.peek i

/-- `v` is what a pop of `s` returns and `t`'s return stack is what it leaves (20_memory.md R81). -/
def Popped (s t : State) (v : PcWord) : Prop :=
  t.sp.toNat = (s.sp.toNat + 7) % 8 ∧ (∀ i : Fin 8, t.peek i = s.peek i)
    ∧ ∀ i : Fin 8, i.val = t.sp.toNat → v = s.peek i

/-- `e` is `b` but for the listed bits of cell `p`, which hold the values listed. -/
def SameButBits (p : Byte) (b e : State) (bits : List (Nat × Bool)) : Prop :=
  e.w = b.w ∧ e.pc = b.pc ∧ e.cyc = b.cyc ∧ SameStack b e ∧ SameHidden b e
    ∧ (∀ q, q ≠ p → e.cell q = b.cell q)
    ∧ ∀ j, j < 8 → e.cellBit p j = (bits.lookup j).getD (b.cellBit p j)

/-- `t` is `s` after an interrupt was taken whose INTCON flag is `flag`: PC is pushed and goes to 4, one
cycle is counted, in INTCON the flag is set and GIE cleared, and nothing else changes (60_exceptions.md
R210, R211). -/
def InterruptTaken (s t : State) (flag : Nat) : Prop :=
  t.w = s.w ∧ t.pc = 4 ∧ t.cyc = s.cyc + 1 ∧ Pushed s t s.pc ∧ SameHidden s t
    ∧ (∀ q, q ≠ intconAddr → t.cell q = s.cell q)
    ∧ ∀ j, j < 8 → t.cellBit intconAddr j
        = if j = gieBit then false else if j = flag then true else s.cellBit intconAddr j

/-- GIE and the enable bit `enable` are both 1 (60_exceptions.md R205). -/
def Enabled (s : State) (enable : Nat) : Prop :=
  s.cellBit intconAddr gieBit = true ∧ s.cellBit intconAddr enable = true

/-- Pushing a list of values, the first first. -/
def State.pushAll (s : State) (vs : List PcWord) : State := vs.foldl State.push s

/-- The values of `n` pops, in order. -/
def State.popMany : Nat → State → List PcWord
  | 0, _ => []
  | n + 1, s => s.popValue :: State.popMany n s.popState

/-- `n` watchdog ticks with nothing between them. -/
def State.wdtTicks : Nat → State → State
  | 0, s => s
  | n + 1, s => (State.wdtTicks n s).wdtTick

/-! ## What an instruction may write -/

/-- The file register a destination names. -/
def Dest.fileOf (d : Dest) (f : BitVec 7) : Option (BitVec 7) :=
  match d with
  | .w => none
  | .f => some f

/-- The file register an instruction writes, if it writes one (43_byte_oriented.md, 44_bit_oriented.md). -/
def fileDest : Instr → Option (BitVec 7)
  | .goto _ => none
  | .call _ => none
  | .ret => none
  | .retlw _ _ => none
  | .retfie => none
  | .nop _ => none
  | .clrwdt => none
  | .sleep => none
  | .addwf d f => Dest.fileOf d f
  | .andwf d f => Dest.fileOf d f
  | .clrf f => some f
  | .clrw _ => none
  | .comf d f => Dest.fileOf d f
  | .decf d f => Dest.fileOf d f
  | .decfsz d f => Dest.fileOf d f
  | .incf d f => Dest.fileOf d f
  | .incfsz d f => Dest.fileOf d f
  | .iorwf d f => Dest.fileOf d f
  | .movf d f => Dest.fileOf d f
  | .movwf f => some f
  | .rlf d f => Dest.fileOf d f
  | .rrf d f => Dest.fileOf d f
  | .subwf d f => Dest.fileOf d f
  | .swapf d f => Dest.fileOf d f
  | .xorwf d f => Dest.fileOf d f
  | .bcf _ f => some f
  | .bsf _ f => some f
  | .btfsc _ _ => none
  | .btfss _ _ => none
  | .addlw _ _ => none
  | .andlw _ => none
  | .iorlw _ => none
  | .movlw _ _ => none
  | .sublw _ _ => none
  | .xorlw _ => none
  | .undecodable _ => none

/-- The cell an instruction stores its result to, if it stores one. -/
def destCell (i : Instr) (s : State) : Option Byte := (fileDest i).map s.fileCell

/-- The instruction's destination is W (10_state.md R21). -/
def writesW : Instr → Bool
  | .goto _ => false
  | .call _ => false
  | .ret => false
  | .retlw _ _ => true
  | .retfie => false
  | .nop _ => false
  | .clrwdt => false
  | .sleep => false
  | .addwf d _ => d == .w
  | .andwf d _ => d == .w
  | .clrf _ => false
  | .clrw _ => true
  | .comf d _ => d == .w
  | .decf d _ => d == .w
  | .decfsz d _ => d == .w
  | .incf d _ => d == .w
  | .incfsz d _ => d == .w
  | .iorwf d _ => d == .w
  | .movf d _ => d == .w
  | .movwf _ => false
  | .rlf d _ => d == .w
  | .rrf d _ => d == .w
  | .subwf d _ => d == .w
  | .swapf d _ => d == .w
  | .xorwf d _ => d == .w
  | .bcf _ _ => false
  | .bsf _ _ => false
  | .btfsc _ _ => false
  | .btfss _ _ => false
  | .addlw _ _ => true
  | .andlw _ => true
  | .iorlw _ => true
  | .movlw _ _ => true
  | .sublw _ _ => true
  | .xorlw _ => true
  | .undecodable _ => false

/-- The STATUS bits an instruction writes besides its destination: the flags column of 30_encoding.md
R96, and !TO and !PD for CLRWDT (42_system.md R151). -/
def statusBits : Instr → List Nat
  | .goto _ => []
  | .call _ => []
  | .ret => []
  | .retlw _ _ => []
  | .retfie => []
  | .nop _ => []
  | .clrwdt => [toBit, pdBit]
  | .sleep => []
  | .addwf _ _ => [cBit, dcBit, zBit]
  | .andwf _ _ => [zBit]
  | .clrf _ => [zBit]
  | .clrw _ => [zBit]
  | .comf _ _ => [zBit]
  | .decf _ _ => [zBit]
  | .decfsz _ _ => []
  | .incf _ _ => [zBit]
  | .incfsz _ _ => []
  | .iorwf _ _ => [zBit]
  | .movf _ _ => [zBit]
  | .movwf _ => []
  | .rlf _ _ => [cBit]
  | .rrf _ _ => [cBit]
  | .subwf _ _ => [cBit, dcBit, zBit]
  | .swapf _ _ => []
  | .xorwf _ _ => [zBit]
  | .bcf _ _ => []
  | .bsf _ _ => []
  | .btfsc _ _ => []
  | .btfss _ _ => []
  | .addlw _ _ => [cBit, dcBit, zBit]
  | .andlw _ => [zBit]
  | .iorlw _ => [zBit]
  | .movlw _ _ => []
  | .sublw _ _ => [cBit, dcBit, zBit]
  | .xorlw _ => [zBit]
  | .undecodable _ => []

/-- The byte `r` an instruction computes for its destination (41_control_transfer.md R143, files 43 to 45),
in the spec's terms; 0 for an instruction without a destination, of which no claim uses it. -/
def resultOf (i : Instr) (s : State) : Byte :=
  match i with
  | .goto _ => 0
  | .call _ => 0
  | .ret => 0
  | .retlw _ k => k
  | .retfie => 0
  | .nop _ => 0
  | .clrwdt => 0
  | .sleep => 0
  | .addwf _ f => s.w + s.readFile f
  | .andwf _ f => s.w &&& s.readFile f
  | .clrf _ => 0
  | .clrw _ => 0
  | .comf _ f => ~~~s.readFile f
  | .decf _ f => s.readFile f - 1
  | .decfsz _ f => s.readFile f - 1
  | .incf _ f => s.readFile f + 1
  | .incfsz _ f => s.readFile f + 1
  | .iorwf _ f => s.w ||| s.readFile f
  | .movf _ f => s.readFile f
  | .movwf _ => s.w
  | .rlf _ f => (s.readFile f).extractLsb' 0 7 ++ BitVec.ofBool (s.cellBit statusAddr cBit)
  | .rrf _ f => BitVec.ofBool (s.cellBit statusAddr cBit) ++ (s.readFile f).extractLsb' 1 7
  | .subwf _ f => s.readFile f - s.w
  | .swapf _ f => (s.readFile f).extractLsb' 0 4 ++ (s.readFile f).extractLsb' 4 4
  | .xorwf _ f => s.readFile f ^^^ s.w
  | .bcf b f => s.readFile f &&& ~~~((1 : Byte) <<< b.toNat)
  | .bsf b f => s.readFile f ||| ((1 : Byte) <<< b.toNat)
  | .btfsc _ _ => 0
  | .btfss _ _ => 0
  | .addlw _ k => s.w + k
  | .andlw k => s.w &&& k
  | .iorlw k => s.w ||| k
  | .movlw _ k => k
  | .sublw _ k => k - s.w
  | .xorlw k => s.w ^^^ k
  | .undecodable _ => 0

/-- The instruction skips the next one (43_byte_oriented.md R166, R168, 44_bit_oriented.md R182, R183). -/
def skips (i : Instr) (s : State) : Bool :=
  match i with
  | .goto _ => false
  | .call _ => false
  | .ret => false
  | .retlw _ _ => false
  | .retfie => false
  | .nop _ => false
  | .clrwdt => false
  | .sleep => false
  | .addwf _ _ => false
  | .andwf _ _ => false
  | .clrf _ => false
  | .clrw _ => false
  | .comf _ _ => false
  | .decf _ _ => false
  | .decfsz d f => resultOf (.decfsz d f) s == 0
  | .incf _ _ => false
  | .incfsz d f => resultOf (.incfsz d f) s == 0
  | .iorwf _ _ => false
  | .movf _ _ => false
  | .movwf _ => false
  | .rlf _ _ => false
  | .rrf _ _ => false
  | .subwf _ _ => false
  | .swapf _ _ => false
  | .xorwf _ _ => false
  | .bcf _ _ => false
  | .bsf _ _ => false
  | .btfsc b f => !(s.readFile f).getLsbD b.toNat
  | .btfss b f => (s.readFile f).getLsbD b.toNat
  | .addlw _ _ => false
  | .andlw _ => false
  | .iorlw _ => false
  | .movlw _ _ => false
  | .sublw _ _ => false
  | .xorlw _ => false
  | .undecodable _ => false

/-- C, DC and Z of the sum `a + b` (40_step_and_alu.md R120). -/
def addFlags (a b : Byte) : List (Nat × Bool) :=
  [(cBit, decide (256 ≤ a.toNat + b.toNat)), (dcBit, decide (16 ≤ a.toNat % 16 + b.toNat % 16)),
    (zBit, a + b == 0)]

/-- C, DC and Z of the difference `a - b` (40_step_and_alu.md R121; D16, log entry 9). -/
def subFlags (a b : Byte) : List (Nat × Bool) :=
  [(cBit, decide (b.toNat ≤ a.toNat)), (dcBit, decide (b.toNat % 16 ≠ 0 ∧ b.toNat % 16 ≤ a.toNat % 16)),
    (zBit, a == b)]

/-- The STATUS bits an instruction writes besides its destination, with their values: the flags of files 43
and 45, and the bits of 42_system.md R151 for CLRWDT. -/
def flagsOf (i : Instr) (s : State) : List (Nat × Bool) :=
  match i with
  | .goto _ => []
  | .call _ => []
  | .ret => []
  | .retlw _ _ => []
  | .retfie => []
  | .nop _ => []
  | .clrwdt => [(toBit, true), (pdBit, true)]
  | .sleep => []
  | .addwf _ f => addFlags s.w (s.readFile f)
  | .andwf d f => [(zBit, resultOf (.andwf d f) s == 0)]
  | .clrf _ => [(zBit, true)]
  | .clrw _ => [(zBit, true)]
  | .comf d f => [(zBit, resultOf (.comf d f) s == 0)]
  | .decf d f => [(zBit, resultOf (.decf d f) s == 0)]
  | .decfsz _ _ => []
  | .incf d f => [(zBit, resultOf (.incf d f) s == 0)]
  | .incfsz _ _ => []
  | .iorwf d f => [(zBit, resultOf (.iorwf d f) s == 0)]
  | .movf d f => [(zBit, resultOf (.movf d f) s == 0)]
  | .movwf _ => []
  | .rlf _ f => [(cBit, (s.readFile f).getLsbD 7)]
  | .rrf _ f => [(cBit, (s.readFile f).getLsbD 0)]
  | .subwf _ f => subFlags (s.readFile f) s.w
  | .swapf _ _ => []
  | .xorwf d f => [(zBit, resultOf (.xorwf d f) s == 0)]
  | .bcf _ _ => []
  | .bsf _ _ => []
  | .btfsc _ _ => []
  | .btfss _ _ => []
  | .addlw _ k => addFlags s.w k
  | .andlw k => [(zBit, resultOf (.andlw k) s == 0)]
  | .iorlw k => [(zBit, resultOf (.iorlw k) s == 0)]
  | .movlw _ _ => []
  | .sublw _ k => subFlags k s.w
  | .xorlw k => [(zBit, resultOf (.xorlw k) s == 0)]
  | .undecodable _ => []

/-- The branching instructions (00_scope.md R16). -/
def isBranching : Instr → Bool
  | .goto _ => true
  | .call _ => true
  | .ret => true
  | .retlw _ _ => true
  | .retfie => true
  | .nop _ => false
  | .clrwdt => false
  | .sleep => false
  | .addwf _ _ => false
  | .andwf _ _ => false
  | .clrf _ => false
  | .clrw _ => false
  | .comf _ _ => false
  | .decf _ _ => false
  | .decfsz _ _ => false
  | .incf _ _ => false
  | .incfsz _ _ => false
  | .iorwf _ _ => false
  | .movf _ _ => false
  | .movwf _ => false
  | .rlf _ _ => false
  | .rrf _ _ => false
  | .subwf _ _ => false
  | .swapf _ _ => false
  | .xorwf _ _ => false
  | .bcf _ _ => false
  | .bsf _ _ => false
  | .btfsc _ _ => false
  | .btfss _ _ => false
  | .addlw _ _ => false
  | .andlw _ => false
  | .iorlw _ => false
  | .movlw _ _ => false
  | .sublw _ _ => false
  | .xorlw _ => false
  | .undecodable _ => false

end Sys2Proof.Machine
end

