-- ==== Sys2Proof/Certificates/Slice0/Obligations.lean ====
section
/-! DEFINITION. The statements for the provers. Each docstring names the rule of spec/ it formalises; where
one rests on a choice the spec marks as its own (a decision D<n>) or on one of the model's, it says so and
names the log entry. STATUS, INTCON and OPTION positions and the GK cell addresses are the spec's choices
D2 to D5 throughout (log entry 4); the statements speak of them by the names of Machine/Layout.lean. -/

open Sys2Proof Sys2Proof.Machine

/-! ## Encoding -/

/-- Words the spec writes out (30_encoding.md section 6, the examples of files 41 to 45) decode to the
instructions it gives for them. -/
def Obligations.WordsOfTheSpecDecode : Prop :=
  decodeWord 0x2810 = .goto 0x010 ∧ decodeWord 0x2005 = .call 0x005 ∧ decodeWord 0x0008 = .ret
    ∧ decodeWord 0x342A = .retlw 0 0x2A ∧ decodeWord 0x0009 = .retfie ∧ decodeWord 0x0063 = .sleep
    ∧ decodeWord 0x0064 = .clrwdt ∧ decodeWord 0x0062 = .nop 0x62 ∧ decodeWord 0x078C = .addwf .f 0x0C
    ∧ decodeWord 0x050C = .andwf .w 0x0C ∧ decodeWord 0x008C = .movwf 0x0C ∧ decodeWord 0x1683 = .bsf 5 0x03
    ∧ decodeWord 0x1903 = .btfsc 2 0x03 ∧ decodeWord 0x3005 = .movlw 0 0x05
    ∧ decodeWord 0x3C05 = .sublw 0 0x05 ∧ decodeWord 0x3B00 = .undecodable 0

/-- The opcode map (30_encoding.md R96 with the fields of R91): the word `w` selects the row with
`w & mask = match`, after the four fixed words for the NOP class, and the instruction carries the row's
fields. -/
def Obligations.DecoderFollowsOpcodeMap : Prop :=
  ∀ w : ProgWord,
    let f := w.extractLsb' 0 7
    let d := if w.getLsbD 7 then Dest.f else Dest.w
    let b := w.extractLsb' 7 3
    let k := w.extractLsb' 0 8
    (w &&& 0x3800 = 0x2800 → decodeWord w = .goto (w.extractLsb' 0 11))
    ∧ (w &&& 0x3800 = 0x2000 → decodeWord w = .call (w.extractLsb' 0 11))
    ∧ (w = 0x0008 → decodeWord w = .ret)
    ∧ (w &&& 0x3C00 = 0x3400 → decodeWord w = .retlw (w.extractLsb' 8 2) k)
    ∧ (w = 0x0009 → decodeWord w = .retfie)
    ∧ (w &&& 0x3F80 = 0x0000 → w ≠ 0x0008 → w ≠ 0x0009 → w ≠ 0x0063 → w ≠ 0x0064 → decodeWord w = .nop f)
    ∧ (w = 0x0064 → decodeWord w = .clrwdt)
    ∧ (w = 0x0063 → decodeWord w = .sleep)
    ∧ (w &&& 0x3F00 = 0x0700 → decodeWord w = .addwf d f)
    ∧ (w &&& 0x3F00 = 0x0500 → decodeWord w = .andwf d f)
    ∧ (w &&& 0x3F80 = 0x0180 → decodeWord w = .clrf f)
    ∧ (w &&& 0x3F80 = 0x0100 → decodeWord w = .clrw f)
    ∧ (w &&& 0x3F00 = 0x0900 → decodeWord w = .comf d f)
    ∧ (w &&& 0x3F00 = 0x0300 → decodeWord w = .decf d f)
    ∧ (w &&& 0x3F00 = 0x0B00 → decodeWord w = .decfsz d f)
    ∧ (w &&& 0x3F00 = 0x0A00 → decodeWord w = .incf d f)
    ∧ (w &&& 0x3F00 = 0x0F00 → decodeWord w = .incfsz d f)
    ∧ (w &&& 0x3F00 = 0x0400 → decodeWord w = .iorwf d f)
    ∧ (w &&& 0x3F00 = 0x0800 → decodeWord w = .movf d f)
    ∧ (w &&& 0x3F80 = 0x0080 → decodeWord w = .movwf f)
    ∧ (w &&& 0x3F00 = 0x0D00 → decodeWord w = .rlf d f)
    ∧ (w &&& 0x3F00 = 0x0C00 → decodeWord w = .rrf d f)
    ∧ (w &&& 0x3F00 = 0x0200 → decodeWord w = .subwf d f)
    ∧ (w &&& 0x3F00 = 0x0E00 → decodeWord w = .swapf d f)
    ∧ (w &&& 0x3F00 = 0x0600 → decodeWord w = .xorwf d f)
    ∧ (w &&& 0x3C00 = 0x1000 → decodeWord w = .bcf b f)
    ∧ (w &&& 0x3C00 = 0x1400 → decodeWord w = .bsf b f)
    ∧ (w &&& 0x3C00 = 0x1800 → decodeWord w = .btfsc b f)
    ∧ (w &&& 0x3C00 = 0x1C00 → decodeWord w = .btfss b f)
    ∧ (w &&& 0x3E00 = 0x3E00 → decodeWord w = .addlw (w.extractLsb' 8 1) k)
    ∧ (w &&& 0x3F00 = 0x3900 → decodeWord w = .andlw k)
    ∧ (w &&& 0x3F00 = 0x3800 → decodeWord w = .iorlw k)
    ∧ (w &&& 0x3C00 = 0x3000 → decodeWord w = .movlw (w.extractLsb' 8 2) k)
    ∧ (w &&& 0x3E00 = 0x3C00 → decodeWord w = .sublw (w.extractLsb' 8 1) k)
    ∧ (w &&& 0x3F00 = 0x3A00 → decodeWord w = .xorlw k)
    ∧ (w &&& 0x3F00 = 0x3B00 → decodeWord w = .undecodable k)

/-- Decoding the word of a well-formed instruction gives it back, with every operand at every value. -/
def Obligations.EncodeThenDecode : Prop :=
  ∀ i : Instr, i.wf = true → decodeWord (encode i) = i

/-- The map is total (30_encoding.md R98, which the spec derives from R96): every 14-bit word decodes to a
well-formed instruction whose word it is. -/
def Obligations.EveryWordDecodesAndEncodesBack : Prop :=
  ∀ w : ProgWord, (decodeWord w).wf = true ∧ encode (decodeWord w) = w

/-! ## The step -/

/-- When the next event is a `Step` and the word at PC is that of a well-formed instruction, `step` is
`exec` of that instruction on the state with that event taken off the list (40_step_and_alu.md R110; the
list is the model's, log entry 1). Any other event is delivered on the same state. -/
def Obligations.StepRunsDecodedInstruction : Prop :=
  ∀ s : State,
    (s.nextEvent = .step → ∀ i : Instr, i.wf = true → s.progRead s.pc = some (encode i) →
      step s = exec i { s with inputs := s.inputs.tail })
    ∧ (s.nextEvent ≠ .step → step s = deliver s.nextEvent { s with inputs := s.inputs.tail })

/-- A step completes and gives a next state, but for the `Step` with PC above 1023, which is the fetch
fault with that PC (40_step_and_alu.md R130; the fault is the spec's choice D9, log entry 8). -/
def Obligations.StepFaultsOnlyOnFetchOutOfRange : Prop :=
  ∀ s : State,
    (s.nextEvent = .step ∧ 1023 < s.pc.toNat → step s = .fault (.fetchOutOfRange s.pc))
    ∧ (¬(s.nextEvent = .step ∧ 1023 < s.pc.toNat) → ∃ t, step s = .next t)

/-- No instruction traps: every instruction with any operands completes in every state
(60_exceptions.md R200). -/
def Obligations.EveryInstructionCompletes : Prop :=
  ∀ (i : Instr) (s : State), ∃ t, exec i s = .next t

/-- Every event of the machine, instructions included, keeps the invariant. -/
def Obligations.StepKeepsMachineForm : Prop :=
  ∀ s t : State, s.Inv → step s = .next t → t.Inv

/-- The state after power-on reset meets the invariant. -/
def Obligations.ResetStateHasMachineForm : Prop :=
  State.reset.Inv

/-! ## Results of the instructions

Each says that `exec` completes, what the Execute phase leaves (`e`), and the skip and cycles with which
phases 5 and 6 follow (`retire`, stated in `RetireAdvancesAndTicks`). `writeDest` is stated in
`WriteDestStoresAndKeepsTheRest`. -/

/-- ADDWF and SUBWF (43_byte_oriented.md R160, R174). The DC and C of a subtraction are in the terms of
40_step_and_alu.md R121, whose integer reading of 256 - b is the spec's choice D16 (log entry 9). With STATUS as the destination the
flags come last by its choice D17 (log entry 7), here and in the next three and the rotates. -/
def Obligations.AddwfSubwfResults : Prop :=
  ∀ (d : Dest) (f : BitVec 7) (s : State),
    let v := s.readFile f
    decodeWord (0b000111#6 ++ d.bit ++ f) = .addwf d f
    ∧ decodeWord (0b000010#6 ++ d.bit ++ f) = .subwf d f
    ∧ (∃ e, exec (.addwf d f) s = .next (e.retire false 1)
        ∧ SameButBits statusAddr (s.writeDest d f (s.w + v)) e
            [(cBit, decide (256 ≤ s.w.toNat + v.toNat)),
             (dcBit, decide (16 ≤ s.w.toNat % 16 + v.toNat % 16)),
             (zBit, decide ((s.w.toNat + v.toNat) % 256 = 0))])
    ∧ (∃ e, exec (.subwf d f) s = .next (e.retire false 1)
        ∧ SameButBits statusAddr (s.writeDest d f (v - s.w)) e
            [(cBit, decide (s.w.toNat ≤ v.toNat)),
             (dcBit, decide (s.w.toNat % 16 ≠ 0 ∧ s.w.toNat % 16 ≤ v.toNat % 16)),
             (zBit, decide (v = s.w))])

/-- ANDWF, IORWF and XORWF (43_byte_oriented.md R161, R169, R176): only Z is written as a flag, after the
destination (D17, log entry 7). -/
def Obligations.LogicFileResults : Prop :=
  ∀ (d : Dest) (f : BitVec 7) (s : State),
    let v := s.readFile f
    decodeWord (0b000101#6 ++ d.bit ++ f) = .andwf d f
    ∧ decodeWord (0b000100#6 ++ d.bit ++ f) = .iorwf d f
    ∧ decodeWord (0b000110#6 ++ d.bit ++ f) = .xorwf d f
    ∧ (∃ e, exec (.andwf d f) s = .next (e.retire false 1)
        ∧ SameButBits statusAddr (s.writeDest d f (s.w &&& v)) e [(zBit, decide (s.w &&& v = 0))])
    ∧ (∃ e, exec (.iorwf d f) s = .next (e.retire false 1)
        ∧ SameButBits statusAddr (s.writeDest d f (s.w ||| v)) e [(zBit, decide (s.w = 0 ∧ v = 0))])
    ∧ (∃ e, exec (.xorwf d f) s = .next (e.retire false 1)
        ∧ SameButBits statusAddr (s.writeDest d f (v ^^^ s.w)) e [(zBit, decide (v = s.w))])

/-- COMF, DECF, INCF and MOVF (43_byte_oriented.md R164, R165, R167, R170): only Z is written as a flag,
after the destination (D17, log entry 7). -/
def Obligations.ComfDecfIncfMovfResults : Prop :=
  ∀ (d : Dest) (f : BitVec 7) (s : State),
    let v := s.readFile f
    decodeWord (0b001001#6 ++ d.bit ++ f) = .comf d f
    ∧ decodeWord (0b000011#6 ++ d.bit ++ f) = .decf d f
    ∧ decodeWord (0b001010#6 ++ d.bit ++ f) = .incf d f
    ∧ decodeWord (0b001000#6 ++ d.bit ++ f) = .movf d f
    ∧ (∃ e, exec (.comf d f) s = .next (e.retire false 1)
        ∧ SameButBits statusAddr (s.writeDest d f (~~~v)) e [(zBit, decide (v = 0xFF))])
    ∧ (∃ e, exec (.decf d f) s = .next (e.retire false 1)
        ∧ SameButBits statusAddr (s.writeDest d f (v - 1)) e [(zBit, decide (v = 1))])
    ∧ (∃ e, exec (.incf d f) s = .next (e.retire false 1)
        ∧ SameButBits statusAddr (s.writeDest d f (v + 1)) e [(zBit, decide (v = 0xFF))])
    ∧ (∃ e, exec (.movf d f) s = .next (e.retire false 1)
        ∧ SameButBits statusAddr (s.writeDest d f v) e [(zBit, decide (v = 0))])

/-- CLRF and CLRW (43_byte_oriented.md R162, R163): Z is set after the destination is written (D17, log
entry 7), and CLRW reads none of its low seven bits. -/
def Obligations.ClearResults : Prop :=
  ∀ (f x : BitVec 7) (s : State),
    decodeWord (0b0000011#7 ++ f) = .clrf f
    ∧ decodeWord (0b0000010#7 ++ x) = .clrw x
    ∧ (∃ e, exec (.clrf f) s = .next (e.retire false 1)
        ∧ SameButBits statusAddr (s.writeDest .f f 0) e [(zBit, true)])
    ∧ (∃ e, exec (.clrw x) s = .next (e.retire false 1)
        ∧ SameButBits statusAddr { s with w := 0 } e [(zBit, true)])

/-- DECFSZ and INCFSZ (43_byte_oriented.md R166, R168): no flag; the skip and its second cycle exactly when
the 8-bit result is 0. -/
def Obligations.DecfszIncfszResults : Prop :=
  ∀ (d : Dest) (f : BitVec 7) (s : State),
    let v := s.readFile f
    decodeWord (0b001011#6 ++ d.bit ++ f) = .decfsz d f
    ∧ decodeWord (0b001111#6 ++ d.bit ++ f) = .incfsz d f
    ∧ exec (.decfsz d f) s
        = .next (if v = 1 then (s.writeDest d f 0).retire true 2 else (s.writeDest d f (v - 1)).retire false 1)
    ∧ exec (.incfsz d f) s
        = .next (if v = 0xFF then (s.writeDest d f 0).retire true 2
            else (s.writeDest d f (v + 1)).retire false 1)

/-- MOVWF and SWAPF (43_byte_oriented.md R171, R175): no flag. The swap is stated bit by bit. -/
def Obligations.MovwfSwapfResults : Prop :=
  ∀ (d : Dest) (f : BitVec 7) (s : State),
    decodeWord (0b0000001#7 ++ f) = .movwf f
    ∧ decodeWord (0b001110#6 ++ d.bit ++ f) = .swapf d f
    ∧ exec (.movwf f) s = .next ((s.writeDest .f f s.w).retire false 1)
    ∧ ∃ r : Byte, exec (.swapf d f) s = .next ((s.writeDest d f r).retire false 1)
        ∧ ∀ j, j < 4 → r.getLsbD j = (s.readFile f).getLsbD (j + 4)
            ∧ r.getLsbD (j + 4) = (s.readFile f).getLsbD j

/-- RLF and RRF (43_byte_oriented.md R172, R173): the rotate through C, stated bit by bit; only C is written
as a flag, after the destination (D17, log entry 7). -/
def Obligations.RotateResults : Prop :=
  ∀ (d : Dest) (f : BitVec 7) (s : State),
    let v := s.readFile f
    let c := s.cellBit statusAddr cBit
    decodeWord (0b001101#6 ++ d.bit ++ f) = .rlf d f
    ∧ decodeWord (0b001100#6 ++ d.bit ++ f) = .rrf d f
    ∧ (∃ (r : Byte) (e : State), exec (.rlf d f) s = .next (e.retire false 1)
        ∧ SameButBits statusAddr (s.writeDest d f r) e [(cBit, v.getLsbD 7)]
        ∧ r.getLsbD 0 = c ∧ ∀ j, j < 7 → r.getLsbD (j + 1) = v.getLsbD j)
    ∧ (∃ (r : Byte) (e : State), exec (.rrf d f) s = .next (e.retire false 1)
        ∧ SameButBits statusAddr (s.writeDest d f r) e [(cBit, v.getLsbD 0)]
        ∧ r.getLsbD 7 = c ∧ ∀ j, j < 7 → r.getLsbD j = v.getLsbD (j + 1))

/-- BCF and BSF (44_bit_oriented.md R180, R181): the cell is read, bit `b` replaced, and written back;
what cell 0x0A keeps of it is the spec's choice D7 (log entry 6). -/
def Obligations.BitClearSetResults : Prop :=
  ∀ (b : BitVec 3) (f : BitVec 7) (s : State),
    decodeWord (0b0100#4 ++ b ++ f) = .bcf b f
    ∧ decodeWord (0b0101#4 ++ b ++ f) = .bsf b f
    ∧ ∀ v : Bool, ∃ r : Byte,
        exec (if v then .bsf b f else .bcf b f) s = .next ((s.writeDest .f f r).retire false 1)
        ∧ ∀ j, j < 8 → r.getLsbD j = if j = b.toNat then v else (s.readFile f).getLsbD j

/-- BTFSC and BTFSS (44_bit_oriented.md R182, R183): the skip and its second cycle exactly when the bit
is 0, respectively 1; no state is written in Execute. -/
def Obligations.BitTestResults : Prop :=
  ∀ (b : BitVec 3) (f : BitVec 7) (s : State),
    let v := (s.readFile f).getLsbD b.toNat
    decodeWord (0b0110#4 ++ b ++ f) = .btfsc b f
    ∧ decodeWord (0b0111#4 ++ b ++ f) = .btfss b f
    ∧ exec (.btfsc b f) s = .next (if v = false then s.retire true 2 else s.retire false 1)
    ∧ exec (.btfss b f) s = .next (if v = true then s.retire true 2 else s.retire false 1)

/-- ADDLW and SUBLW (45_literal.md R190, R194), with bit 8 ignored. The integer reading of the subtraction
is the spec's choice D16 (log entry 9). -/
def Obligations.AddlwSublwResults : Prop :=
  ∀ (x : BitVec 1) (k : BitVec 8) (s : State),
    decodeWord (0b11111#5 ++ x ++ k) = .addlw x k
    ∧ decodeWord (0b11110#5 ++ x ++ k) = .sublw x k
    ∧ (∃ e, exec (.addlw x k) s = .next (e.retire false 1)
        ∧ SameButBits statusAddr { s with w := s.w + k } e
            [(cBit, decide (256 ≤ s.w.toNat + k.toNat)),
             (dcBit, decide (16 ≤ s.w.toNat % 16 + k.toNat % 16)),
             (zBit, decide ((s.w.toNat + k.toNat) % 256 = 0))])
    ∧ (∃ e, exec (.sublw x k) s = .next (e.retire false 1)
        ∧ SameButBits statusAddr { s with w := k - s.w } e
            [(cBit, decide (s.w.toNat ≤ k.toNat)),
             (dcBit, decide (s.w.toNat % 16 ≠ 0 ∧ s.w.toNat % 16 ≤ k.toNat % 16)),
             (zBit, decide (k = s.w))])

/-- ANDLW, IORLW and XORLW (45_literal.md R191, R192, R195). -/
def Obligations.LogicLiteralResults : Prop :=
  ∀ (k : BitVec 8) (s : State),
    decodeWord (0b111001#6 ++ k) = .andlw k
    ∧ decodeWord (0b111000#6 ++ k) = .iorlw k
    ∧ decodeWord (0b111010#6 ++ k) = .xorlw k
    ∧ (∃ e, exec (.andlw k) s = .next (e.retire false 1)
        ∧ SameButBits statusAddr { s with w := s.w &&& k } e [(zBit, decide (s.w &&& k = 0))])
    ∧ (∃ e, exec (.iorlw k) s = .next (e.retire false 1)
        ∧ SameButBits statusAddr { s with w := s.w ||| k } e [(zBit, decide (s.w = 0 ∧ k = 0))])
    ∧ (∃ e, exec (.xorlw k) s = .next (e.retire false 1)
        ∧ SameButBits statusAddr { s with w := s.w ^^^ k } e [(zBit, decide (k = s.w))])

/-- MOVLW (45_literal.md R193), with bits 9:8 ignored: W alone is written, no flag. -/
def Obligations.MovlwResult : Prop :=
  ∀ (x : BitVec 2) (k : BitVec 8) (s : State),
    decodeWord (0b1100#4 ++ x ++ k) = .movlw x k
    ∧ exec (.movlw x k) s = .next (({ s with w := k } : State).retire false 1)

/-- GOTO (41_control_transfer.md R140): PC becomes the 11-bit literal with PC[12:11] = 0 (the spec's choice
D10, log entry 9); 2 cycles; nothing else changes. -/
def Obligations.GotoResult : Prop :=
  ∀ (k : BitVec 11) (s : State),
    decodeWord (0b101#3 ++ k) = .goto k
    ∧ ∃ t, exec (.goto k) s = .next t ∧ t.pc.toNat = k.toNat ∧ t.cyc = s.cyc + 2 ∧ t.w = s.w
        ∧ SameStack s t ∧ SameHidden s t ∧ ∀ q, t.cell q = s.cell q

/-- CALL (41_control_transfer.md R141): the address after the CALL is pushed; PC becomes the literal
with PC[12:11] = 0 (the spec's choice D10, log entry 9); 2 cycles; nothing else changes. -/
def Obligations.CallResult : Prop :=
  ∀ (k : BitVec 11) (s : State),
    decodeWord (0b100#3 ++ k) = .call k
    ∧ ∃ t, exec (.call k) s = .next t ∧ t.pc.toNat = k.toNat ∧ t.cyc = s.cyc + 2 ∧ t.w = s.w
        ∧ Pushed s t (s.pc + 1) ∧ SameHidden s t ∧ ∀ q, t.cell q = s.cell q

/-- RETURN and RETLW (41_control_transfer.md R142, R143): PC is popped, all 13 bits; RETLW loads W and
writes no flag; 2 cycles; nothing else changes. -/
def Obligations.ReturnResults : Prop :=
  ∀ (x : BitVec 2) (k : BitVec 8) (s : State),
    decodeWord 0x0008 = .ret
    ∧ decodeWord (0b1101#4 ++ x ++ k) = .retlw x k
    ∧ (∃ t, exec .ret s = .next t ∧ Popped s t t.pc ∧ t.cyc = s.cyc + 2 ∧ t.w = s.w ∧ SameHidden s t
        ∧ ∀ q, t.cell q = s.cell q)
    ∧ (∃ t, exec (.retlw x k) s = .next t ∧ Popped s t t.pc ∧ t.cyc = s.cyc + 2 ∧ t.w = k ∧ SameHidden s t
        ∧ ∀ q, t.cell q = s.cell q)

/-- RETFIE (41_control_transfer.md R144): PC is popped, GIE is set, the other INTCON bits keep their
values; no interrupt is entered; 2 cycles; nothing else changes. -/
def Obligations.RetfieResult : Prop :=
  ∀ s : State,
    decodeWord 0x0009 = .retfie
    ∧ ∃ t, exec .retfie s = .next t ∧ Popped s t t.pc ∧ t.cyc = s.cyc + 2 ∧ t.w = s.w ∧ SameHidden s t
        ∧ (∀ q, q ≠ intconAddr → t.cell q = s.cell q)
        ∧ ∀ j, j < 8 → t.cellBit intconAddr j = (if j = gieBit then true else s.cellBit intconAddr j)

/-- NOP and SLEEP (42_system.md R150, R152): Execute changes nothing; 1 and 2 cycles. That SLEEP leaves
!TO, !PD, WDT and PRE is the spec's choice D25 (log entry 9). -/
def Obligations.NopSleepResults : Prop :=
  ∀ (x : BitVec 7) (s : State),
    (x ≠ 0x08 ∧ x ≠ 0x09 ∧ x ≠ 0x63 ∧ x ≠ 0x64 → decodeWord (0b0000000#7 ++ x) = .nop x)
    ∧ decodeWord 0x0063 = .sleep
    ∧ exec (.nop x) s = .next (s.retire false 1)
    ∧ exec .sleep s = .next (s.retire false 2)

/-- CLRWDT (42_system.md R151): !TO and !PD are set and WDT cleared; C, DC and Z keep their values. That
PRE keeps its value is the spec's choice D25 (log entry 9). -/
def Obligations.ClrwdtResult : Prop :=
  ∀ s : State,
    decodeWord 0x0064 = .clrwdt
    ∧ ∃ e, exec .clrwdt s = .next (e.retire false 1)
        ∧ SameButBits statusAddr { s with wdt := 0 } e [(toBit, true), (pdBit, true)]

/-- The undecodable word (42_system.md R156): a no-op; its one cycle and its timer tick are the spec's
choice D15 (log entry 11). -/
def Obligations.UndecodableResult : Prop :=
  ∀ (x : BitVec 8) (s : State),
    decodeWord (0b111011#6 ++ x) = .undecodable x
    ∧ exec (.undecodable x) s = .next (s.retire false 1)

/-! ## The end of a step -/

/-- Phases 5 and 6 of a non-branching instruction (40_step_and_alu.md R114 to R116; the increment on the PC
an instruction wrote is the spec's choice D8, the tick past the prescaler D13: log entries 6, 10): CYC grows
by the cycles; with T0CS set PC grows by 1, or 2 with a skip; with T0CS clear TMR0 is ticked as well, and
on an enabled overflow the interrupt is taken after the PC update. -/
def Obligations.RetireAdvancesAndTicks : Prop :=
  ∀ (s : State) (skip : Bool) (cycles : Nat),
    let t := s.retire skip cycles
    let next : PcWord := s.pc + (if skip then 2 else 1)
    let overflow := s.cell tmr0Addr = 0xFF ∧ Enabled s t0ieBit
    (s.cellBit optionAddr t0csBit = true →
      t.w = s.w ∧ t.pc = next ∧ t.cyc = s.cyc + cycles ∧ SameStack s t ∧ SameHidden s t
      ∧ ∀ q, t.cell q = s.cell q)
    ∧ (s.cellBit optionAddr t0csBit = false →
      t.cell tmr0Addr = s.cell tmr0Addr + 1
      ∧ (overflow → InterruptTaken
          (({ s with pc := next, cyc := s.cyc + cycles } : State).setCell tmr0Addr 0) t t0ifBit)
      ∧ (¬overflow → t.w = s.w ∧ t.pc = next ∧ t.cyc = s.cyc + cycles ∧ SameStack s t ∧ SameHidden s t
          ∧ ∀ q, q ≠ tmr0Addr → t.cell q = s.cell q))

/-- Branching instructions never tick TMR0 and are never followed by a Timer0 interrupt in their own step:
TMR0 is unchanged, INTCON keeps every bit but the GIE that RETFIE sets, and 2 cycles are counted
(40_step_and_alu.md R117, R114). -/
def Obligations.BranchesNeverTickTimer : Prop :=
  ∀ (i : Instr) (s : State), isBranching i = true →
    ∃ t, exec i s = .next t ∧ t.cell tmr0Addr = s.cell tmr0Addr ∧ t.cyc = s.cyc + 2
      ∧ ∀ j, j < 8 → (i = .retfie → j ≠ gieBit) → t.cellBit intconAddr j = s.cellBit intconAddr j

/-! ## What instructions leave unchanged -/

/-- The register frame: an instruction changes no cell of the register file but its destination cell,
STATUS, TMR0 and INTCON (the last two by the timer tick, its interrupt, or RETFIE) and the PC windows. -/
def Obligations.InstructionCellFrame : Prop :=
  ∀ (i : Instr) (s t : State) (q : Byte), exec i s = .next t →
    q ≠ tmr0Addr → q ≠ statusAddr → q ≠ intconAddr → q ≠ pclAddr → q ≠ pclathAddr →
    destCell i s ≠ some q → t.cellRead q = s.cellRead q

/-- The status frame: an instruction whose destination is not STATUS changes no STATUS bit but the flags it
writes (10_state.md R35). -/
def Obligations.InstructionStatusFrame : Prop :=
  ∀ (i : Instr) (s t : State) (j : Nat), exec i s = .next t → j < 8 →
    destCell i s ≠ some statusAddr → j ∉ statusBits i →
    t.cellBit statusAddr j = s.cellBit statusAddr j

/-- The frame of the registers outside the register file: W changes only when it is the destination
(10_state.md R21), WDT only by CLRWDT, and PRE, program memory and the environment's events never. -/
def Obligations.InstructionHiddenFrame : Prop :=
  ∀ (i : Instr) (s t : State), exec i s = .next t →
    (writesW i = false → t.w = s.w)
    ∧ t.wdt = (if i = .clrwdt then 0 else s.wdt)
    ∧ t.pre = s.pre ∧ t.prog = s.prog ∧ t.inputs = s.inputs

/-- No instruction reads PRE, WDT or CYC (10_state.md R47, R48, R49): running it from a state that differs
in them gives the same state but for them, PRE as it was, WDT as it was unless CLRWDT clears it, CYC ahead
by as much. -/
def Obligations.InstructionsDoNotReadCounters : Prop :=
  ∀ (i : Instr) (s t : State) (p x : Byte) (n : Nat), exec i s = .next t →
    exec i { s with pre := p, wdt := x, cyc := s.cyc + n }
      = .next { t with pre := p, wdt := if i = .clrwdt then 0 else x, cyc := t.cyc + n }

/-! ## The register file and its addressing -/

/-- `Resolve` (20_memory.md R62, R63): address 0 is the cell FSR names; with RP0 = 1 the addresses
1, 5, 6, 8 and 9 are those plus 128; every other address is itself. -/
def Obligations.ResolveGivesTheAddressedCell : Prop :=
  ∀ (s : State) (a : Byte),
    s.resolve a
      = if a = 0 then s.cell fsrAddr
        else if s.cellBit statusAddr rp0Bit = true ∧ a ∈ [(1 : Byte), 5, 6, 8, 9]
          then BitVec.ofNat 8 (a.toNat + 128)
        else a

/-- `WriteDest` (40_step_and_alu.md R118 with 20_memory.md R65): to W, W alone changes; to the file
register, the cell it resolves to reads as the value written and every other cell reads as before. That
cells 0x02 and 0x0A are windows on PC, of which 0x0A keeps five bits, is the spec's choice D7 (log
entry 6). -/
def Obligations.WriteDestStoresAndKeepsTheRest : Prop :=
  ∀ (s : State) (d : Dest) (f : BitVec 7) (v : Byte),
    let t := s.writeDest d f v
    let p := s.fileCell f
    t.w = (if d = .w then v else s.w)
    ∧ (∀ q, t.cellRead q
        = if d = .f ∧ q = p then (if p = pclathAddr then v &&& 0x1F else v) else s.cellRead q)
    ∧ (d = .f ∧ p = pclAddr → t.pc.toNat = s.pc.toNat / 256 * 256 + v.toNat)
    ∧ (d = .f ∧ p = pclathAddr → t.pc.toNat = v.toNat % 32 * 256 + s.pc.toNat % 256)
    ∧ (¬(d = .f ∧ (p = pclAddr ∨ p = pclathAddr)) → t.pc = s.pc)
    ∧ t.cyc = s.cyc ∧ SameStack s t ∧ SameHidden s t

/-- `BitWrite` (20_memory.md R69): the addressed cell reads back with the one bit replaced, every other
cell as before. On PCLATH bits 7:5 stay 0, by the spec's choice D7 (log entry 6). -/
def Obligations.BitWriteReplacesOneBit : Prop :=
  ∀ (s : State) (a : Byte) (b : Fin 8) (v : Bool),
    let t := s.bitWrite a b v
    let p := s.resolve a
    (∀ j, j < 8 → (t.cellRead p).getLsbD j
        = if p = pclathAddr ∧ 5 ≤ j then false else if j = b.val then v else (s.cellRead p).getLsbD j)
    ∧ (∀ q, q ≠ p → t.cellRead q = s.cellRead q)
    ∧ t.w = s.w ∧ t.cyc = s.cyc ∧ SameStack s t ∧ SameHidden s t

/-- The banks differ exactly on the aliased set (the source's property S-1 in 95_test_vectors.md section 1;
20_memory.md section 2): what is written at `a` with RP0 = 1 is read at `a` with RP0 = 0 unless `a` is
aliased, and then the bank-0 value is as before. Address 0 and STATUS, which steer the access, and the PC
windows are left to `ResolveGivesTheAddressedCell` and `WriteDestStoresAndKeepsTheRest`. -/
def Obligations.BanksDifferOnAliasedSet : Prop :=
  ∀ (s : State) (a v : Byte), a ≠ 0 → a ≠ statusAddr → a ≠ pclathAddr →
    (((s.setCellBit statusAddr rp0Bit true).memWrite a v).setCellBit statusAddr rp0Bit false).memRead a
      = if a ∈ [(1 : Byte), 5, 6, 8, 9] then (s.setCellBit statusAddr rp0Bit false).memRead a else v

/-! ## Program memory and the return stack -/

/-- `ProgWrite` and `ProgReset` (20_memory.md R76, R77): the word written is read back, every other word is
as before, and after `ProgReset` every word is 0; nothing but program memory changes. -/
def Obligations.ProgramLoadWritesProgramMemory : Prop :=
  ∀ (s : State) (a : BitVec 10) (w : ProgWord) (b : PcWord), b.toNat < 1024 →
    (∃ t, deliver (.progWrite a w) s = .next t
      ∧ t.progRead b = (if b.toNat = a.toNat then some w else s.progRead b)
      ∧ { t with prog := s.prog } = s)
    ∧ (∃ t, deliver .progReset s = .next t ∧ t.progRead b = some 0 ∧ { t with prog := s.prog } = s)

/-- The circular stack (the source's property S-2 in 95_test_vectors.md section 1; 20_memory.md section 4):
after nine pushes, eight pops return the last eight values, last first, whatever the stack held; a ninth
pop returns the ninth value again. -/
def Obligations.NinthPushOverwritesFirst : Prop :=
  ∀ (s : State) (vs : List PcWord), vs.length = 9 →
    State.popMany 8 (s.pushAll vs) = vs.tail.reverse
    ∧ State.popMany 9 (s.pushAll vs) = vs.tail.reverse ++ vs.drop 8
    ∧ (s.pushAll vs).sp = s.sp + 1

/-- RETURN undoes CALL (41_control_transfer.md section on the calling convention): PC is the address after
the CALL, the stack pointer is where it was, W and the register file are unchanged. -/
def Obligations.ReturnUndoesCall : Prop :=
  ∀ (s : State) (k : BitVec 11), ∃ t u, exec (.call k) s = .next t ∧ exec .ret t = .next u
    ∧ u.pc = s.pc + 1 ∧ u.sp = s.sp ∧ u.w = s.w ∧ ∀ q, u.cell q = s.cell q

/-! ## Timer0, prescaler, watchdog -/

/-- `Tmr0Increment` (60_exceptions.md R212): TMR0 grows by 1 modulo 256; on overflow with T0IE and GIE set
the interrupt is taken with T0IF; otherwise nothing else changes. -/
def Obligations.Tmr0IncrementCountsAndInterrupts : Prop :=
  ∀ s : State,
    let t := s.tmr0Increment
    let overflow := s.cell tmr0Addr = 0xFF ∧ Enabled s t0ieBit
    (t.cell tmr0Addr).toNat = ((s.cell tmr0Addr).toNat + 1) % 256
    ∧ (overflow → InterruptTaken (s.setCell tmr0Addr 0) t t0ifBit)
    ∧ (¬overflow → t.w = s.w ∧ t.pc = s.pc ∧ t.cyc = s.cyc ∧ SameStack s t ∧ SameHidden s t
        ∧ ∀ q, q ≠ tmr0Addr → t.cell q = s.cell q)

/-- `PrescalerTick` (60_exceptions.md R214; the 8-bit width and the `>=` are the spec's choice D14, log
entry 10): the threshold is `2^PS` for the watchdog and twice that for Timer0; below it PRE counts without
wrapping; at it PRE is cleared and the consumer ticked once. -/
def Obligations.PrescalerForwardsAtThreshold : Prop :=
  ∀ s : State,
    let ps := (s.cell optionAddr).toNat % 8
    let psa := s.cellBit optionAddr psaBit
    let thr := if psa = true then 2 ^ ps else 2 * 2 ^ ps
    (s.pre.toNat + 1 < thr →
      s.prescalerTick.pre.toNat = s.pre.toNat + 1 ∧ { s.prescalerTick with pre := s.pre } = s)
    ∧ (thr ≤ s.pre.toNat + 1 →
      (psa = true → s.prescalerTick = ({ s with pre := 0 } : State).wdtIncrement)
      ∧ (psa = false → s.prescalerTick = ({ s with pre := 0 } : State).tmr0Increment))

/-- `WdtIncrement` and the watchdog reset (60_exceptions.md R216, 70_reset_and_hazards.md R254): WDT grows
by 1; on reaching 128 the machine is reset and !TO is 0, !PD is 1, with C, DC and Z kept. For a WDT of 128 or
more, which no run reaches, the count is the model's 8-bit one (DESIGN CHOICE, log entry 13). -/
def Obligations.WatchdogResetsAtLimit : Prop :=
  ∀ s : State,
    let t := s.wdtIncrement
    (s.wdt.toNat ≠ 127 → t = { s with wdt := s.wdt + 1 })
    ∧ (s.wdt.toNat = 127 →
      t.wdt = 0 ∧ t.pc = 0 ∧ SameButBits statusAddr s.softReset t [(toBit, false), (pdBit, true)]
      ∧ ∀ j, j < 8 → t.cellBit statusAddr j
          = (if j = pdBit then true else if j < 3 then s.cellBit statusAddr j else false))

/-- `WdtTick` (60_exceptions.md R220): through the prescaler when PSA = 1, else straight to the watchdog.
When it comes is the environment's (the open parameter WDT_TICK_POLICY, D30; log entry 1). -/
def Obligations.WdtTickRoutesByPsa : Prop :=
  ∀ s : State,
    deliver .wdtTick s
      = .next (if s.cellBit optionAddr psaBit = true then s.prescalerTick else s.wdtIncrement)

/-- The watchdog period (60_exceptions.md R220, which the spec derives; the source's property S-7): with
OPTION = 0xFF, PRE = 0 and WDT = 0, `n` ticks with n < 16384 leave PRE = n mod 128, WDT = n / 128 and
everything else; the 16384th resets the machine with !TO = 0 and keeps W and C, DC, Z. -/
def Obligations.WatchdogPeriodIs16384Ticks : Prop :=
  ∀ s : State, s.cell optionAddr = 0xFF → s.pre = 0 → s.wdt = 0 →
    (∀ n, n < 16384 → s.wdtTicks n
        = { s with pre := BitVec.ofNat 8 (n % 128), wdt := BitVec.ofNat 8 (n / 128) })
    ∧ (s.wdtTicks 16384).pc = 0 ∧ (s.wdtTicks 16384).w = s.w
    ∧ (s.wdtTicks 16384).cell statusAddr = (s.cell statusAddr &&& 0x07) ||| 0x08

/-! ## Pin events and interrupts -/

/-- `Ra4Edge` (60_exceptions.md R222): in counter mode the selected edge advances the prescaler when PSA = 0,
else TMR0; any other edge, or T0CS = 0, does nothing. That T0SE = 1 is the falling edge is the spec's choice
D6 (log entry 5). -/
def Obligations.Ra4EdgeClocksTimer : Prop :=
  ∀ (s : State) (level : Level),
    let selected := s.cellBit optionAddr t0csBit = true
      ∧ (s.cellBit optionAddr t0seBit = true ↔ level = .low)
    let psa := s.cellBit optionAddr psaBit
    (selected → psa = true → deliver (.pinChanged .ra4 level) s = .next s.tmr0Increment)
    ∧ (selected → psa = false → deliver (.pinChanged .ra4 level) s = .next s.prescalerTick)
    ∧ (¬selected → deliver (.pinChanged .ra4 level) s = .next s)

/-- `Rb0Edge` (60_exceptions.md R223): the selected edge with GIE and INTE set takes the interrupt with INTF;
otherwise nothing changes. That INTEDG = 1 is the rising edge is the spec's choice D6 (log entry 5). -/
def Obligations.Rb0EdgeInterrupts : Prop :=
  ∀ (s : State) (level : Level),
    let taken := (s.cellBit optionAddr intedgBit = true ↔ level = .high) ∧ Enabled s inteBit
    ∃ t, deliver (.pinChanged .rb0 level) s = .next t
      ∧ (taken → InterruptTaken s t intfBit) ∧ (¬taken → t = s)

/-- `RbChange` (60_exceptions.md R224): a change of RB4 to RB7, to either level, with GIE and RBIE set takes
the interrupt with RBIF; otherwise nothing changes. -/
def Obligations.PortChangeInterrupts : Prop :=
  ∀ (s : State) (pin : Pin) (level : Level), pin ∈ [Pin.rb4, .rb5, .rb6, .rb7] →
    ∃ t, deliver (.pinChanged pin level) s = .next t
      ∧ (Enabled s rbieBit → InterruptTaken s t rbifBit) ∧ (¬Enabled s rbieBit → t = s)

/-- A change of any other pin has no effect (60_exceptions.md R225, the spec's choice D37; log entry 9). -/
def Obligations.OtherPinsHaveNoEffect : Prop :=
  ∀ (s : State) (pin : Pin) (level : Level), pin ∉ [Pin.ra4, .rb0, .rb4, .rb5, .rb6, .rb7] →
    deliver (.pinChanged pin level) s = .next s

/-- With GIE clear no pin event enters an interrupt or leaves a flag (60_exceptions.md R206; that nothing is
pending is the spec's choice D26, log entry 9): PC, the return
stack, CYC, W and every cell but TMR0, which still counts, keep their values. -/
def Obligations.PinEventsWithoutGieLeaveNoTrace : Prop :=
  ∀ (s t : State) (pin : Pin) (level : Level), s.cellBit intconAddr gieBit = false →
    deliver (.pinChanged pin level) s = .next t →
    t.pc = s.pc ∧ SameStack s t ∧ t.cyc = s.cyc ∧ t.w = s.w ∧ ∀ q, q ≠ tmr0Addr → t.cell q = s.cell q

/-- The return from an interrupt (60_exceptions.md R211, R230): after an interrupt was taken, RETFIE brings
back PC and the stack pointer, with GIE set and the flag still set; W and every cell but INTCON are as
before. -/
def Obligations.RetfieUndoesInterrupt : Prop :=
  ∀ (s : State) (flag : Nat), flag < 7 → ∃ t, exec .retfie (s.takeInterrupt flag) = .next t
    ∧ t.pc = s.pc ∧ t.sp = s.sp ∧ t.w = s.w ∧ t.cyc = s.cyc + 3
    ∧ (∀ q, q ≠ intconAddr → t.cell q = s.cell q)
    ∧ ∀ j, j < 8 → t.cellBit intconAddr j
        = if j = gieBit ∨ j = flag then true else s.cellBit intconAddr j

/-- A write to INTCON enters no interrupt, whatever flags, enables and GIE it sets (60_exceptions.md R228, the
spec's choice D26; log entry 9): an instruction with INTCON as its destination stores its result there, moves
to the next instruction and pushes nothing. The premise leaves out only the steps whose own timer tick
overflows (internal clock, TMR0 = 0xFF), which are `RetireAdvancesAndTicks`'s. -/
def Obligations.SettingGieEntersNoInterrupt : Prop :=
  ∀ (i : Instr) (s : State), destCell i s = some intconAddr →
    (s.cellBit optionAddr t0csBit = true ∨ s.cell tmr0Addr ≠ 0xFF) →
    ∃ t, exec i s = .next t ∧ t.pc = s.pc + (if skips i s = true then 2 else 1) ∧ SameStack s t
      ∧ t.cyc = s.cyc + (if skips i s = true then 2 else 1) ∧ t.cell intconAddr = resultOf i s

/-! ## Resets -/

/-- `Reset()` (70_reset_and_hazards.md R252, R253): the values it sets, and what it leaves alone. -/
def Obligations.SoftResetSetsAndKeeps : Prop :=
  ∀ s : State, ∃ t, deliver .reset s = .next t
    ∧ t.sp = 0 ∧ (∀ i : Fin 8, t.peek i = 0) ∧ t.pre = 0 ∧ t.cyc = 0 ∧ t.wdt = 0 ∧ t.pc = 0
    ∧ t.w = s.w ∧ t.prog = s.prog
    ∧ (∀ j, j < 8 → t.cellBit statusAddr j
        = if j < 3 then s.cellBit statusAddr j else decide (j = toBit ∨ j = pdBit))
    ∧ t.cell optionAddr = 0xFF ∧ t.cell trisaAddr = 0x1F ∧ t.cell trisbAddr = 0xFF
    ∧ t.cell intconAddr = 0x00
    ∧ ∀ q, q ∉ [statusAddr, optionAddr, trisaAddr, trisbAddr, intconAddr] → t.cell q = s.cell q

/-- `PowerOnReset()` (70_reset_and_hazards.md R250; 10_state.md R32, R36, R40, R41): every cell is 0 but
STATUS, OPTION, TRISA and TRISB, W is 0, and the rest is as after a reset. -/
def Obligations.PowerOnResetZeroesTheMachine : Prop :=
  ∀ s : State, ∃ t, deliver .powerOnReset s = .next t
    ∧ t.sp = 0 ∧ (∀ i : Fin 8, t.peek i = 0) ∧ t.pre = 0 ∧ t.cyc = 0 ∧ t.wdt = 0 ∧ t.pc = 0
    ∧ t.w = 0 ∧ t.prog = s.prog
    ∧ ∀ q, t.cellRead q = if q = statusAddr then 0x18 else if q = optionAddr then 0xFF
        else if q = trisaAddr then 0x1F else if q = trisbAddr then 0xFF else 0

/-- From any state with the invariant, a power-on reset gives exactly the model's reset state, with the
program and the events still to come (70_reset_and_hazards.md R257; that a model starts there is the spec's
choice D22, log entry 3). -/
def Obligations.PowerOnResetGivesResetState : Prop :=
  ∀ s : State, s.Inv →
    deliver .powerOnReset s = .next { State.reset with prog := s.prog, inputs := s.inputs }

/-- The values power-on reset leaves, read from the model's reset state (10_state.md R22, R28, R36, R38, R40,
R41, R46). -/
def Obligations.ResetStateValues : Prop :=
  let s := State.reset
  s.w = 0 ∧ s.pc = 0 ∧ s.cellRead pclAddr = 0 ∧ s.cellRead pclathAddr = 0
    ∧ s.cellRead statusAddr = 0x18 ∧ s.cellRead intconAddr = 0x00 ∧ s.cellRead optionAddr = 0xFF
    ∧ s.cellRead trisaAddr = 0x1F ∧ s.cellRead trisbAddr = 0xFF ∧ s.sp = 0 ∧ ∀ i : Fin 8, s.peek i = 0

/-! ## The corners the spec points at, and inspection -/

/-- An instruction with PCL or PCLATH as its destination continues at the written address plus 1, or plus 2
with a skip (40_step_and_alu.md R115, 70_reset_and_hazards.md R261 items 1 and 2, the spec's choices D7 and
D8; log entry 6): through any instruction and any way of naming the cell. Where the timer tick of the same
step takes its interrupt, that address is what is pushed. -/
def Obligations.PclWriteContinuesPlusOne : Prop :=
  ∀ (i : Instr) (s : State) (p : Byte), destCell i s = some p → p = pclAddr ∨ p = pclathAddr →
    let r := (resultOf i s).toNat
    let written := if p = pclAddr then s.pc.toNat / 256 * 256 + r else r % 32 * 256 + s.pc.toNat % 256
    let next := BitVec.ofNat 13 (written + (if skips i s = true then 2 else 1))
    let taken := s.cellBit optionAddr t0csBit = false ∧ s.cell tmr0Addr = 0xFF ∧ Enabled s t0ieBit
    ∃ t, exec i s = .next t ∧ (¬taken → t.pc = next) ∧ (taken → t.pc = 4 ∧ Pushed s t next)

/-- With STATUS as the destination of any instruction the flags are written last (40_step_and_alu.md R119,
the spec's choice D17; log entry 7): each bit the instruction writes as a flag holds the flag, every other bit
the result. -/
def Obligations.StatusDestinationFlagsLast : Prop :=
  ∀ (i : Instr) (s : State), destCell i s = some statusAddr →
    ∃ t, exec i s = .next t
      ∧ ∀ j, j < 8 → t.cellBit statusAddr j = ((flagsOf i s).lookup j).getD ((resultOf i s).getLsbD j)

/-- At every address but 0 (a free value there, log entry 12), bank-explicit inspection agrees with the
bank-aware one for the selected bank, and depends neither on RP0 (asked elsewhere than at STATUS) nor on FSR
(asked elsewhere than at FSR) (60_exceptions.md R236). At addresses 0x02 and 0x0A it rests on the DEDUCED part
of log entry 12, that it sees the PC windows. -/
def Obligations.BankExplicitInspection : Prop :=
  ∀ (s : State) (n : Nat) (a : Byte) (bank : Bool), a ≠ 0 →
    (s.cellBit statusAddr rp0Bit = bank → s.inspectBank n a bank = s.inspectByte a)
    ∧ (∀ v : Bool, a ≠ statusAddr →
      (s.setCellBit statusAddr rp0Bit v).inspectBank n a bank = s.inspectBank n a bank)
    ∧ (∀ v : Byte, a ≠ fsrAddr → (s.setCell fsrAddr v).inspectBank n a bank = s.inspectBank n a bank)
end

