-- ==== Sys2Proof/Laws/Alu.lean ====
section
/-! SUPPORT. The ALU in terms of 8-bit arithmetic: one equation per function, cited instead of unfolding
the function. -/

namespace Sys2Proof.Machine

theorem aluAdd_eq (a b : Byte) :
    aluAdd a b.toNat
      = { value := a + b
          c := decide (256 ≤ a.toNat + b.toNat)
          dc := decide (16 ≤ a.toNat % 16 + b.toNat % 16)
          z := a + b == 0 } := by
  have hv : BitVec.ofNat 8 (a.toNat + b.toNat) = a + b := BitVec.eq_of_toNat_eq (by simp)
  simp only [aluAdd, hv]

theorem aluSub_eq (a b : Byte) :
    aluSub a b
      = { value := a - b
          c := decide (b.toNat ≤ a.toNat)
          dc := decide (b.toNat % 16 ≠ 0 ∧ b.toNat % 16 ≤ a.toNat % 16)
          z := a == b } := by
  have ha := a.isLt
  have hb := b.isLt
  have hv : BitVec.ofNat 8 (a.toNat + (256 - b.toNat)) = a - b :=
    BitVec.eq_of_toNat_eq (by simp [BitVec.toNat_sub]; omega)
  have hz : a - b = 0 ↔ a = b := by
    rw [← BitVec.toNat_inj, ← BitVec.toNat_inj, BitVec.toNat_sub, show (0 : Byte).toNat = 0 from rfl]
    omega
  simp only [aluSub, aluAdd, hv, AluResult.mk.injEq, decide_eq_decide, Bool.beq_eq_decide_eq, hz, true_and,
    and_true]
  omega

theorem aluCom_eq (v : Byte) : aluCom v = ~~~v := by
  revert v
  decide

theorem aluInc_eq (v : Byte) : aluInc v = v + 1 := by
  revert v
  decide

theorem aluDec_eq (v : Byte) : aluDec v = v - 1 := by
  revert v
  decide

theorem aluRlc_eq (v : Byte) (c : Bool) :
    aluRlc v c = { value := (v.extractLsb' 0 7 ++ BitVec.ofBool c : BitVec 8), c := v.getLsbD 7 } := by
  revert v c
  decide

theorem aluRrc_eq (v : Byte) (c : Bool) :
    aluRrc v c = { value := (BitVec.ofBool c ++ v.extractLsb' 1 7 : BitVec 8), c := v.getLsbD 0 } := by
  revert v c
  decide

end Sys2Proof.Machine
end

