-- ==== Sys2Proof/Laws/Memory.lean ====
section
/-! SUPPORT. The canonical lists: what a read after a write gives, that every write keeps the canonical
form, and that equal contents are equal lists. -/

namespace Sys2Proof.Machine

variable {n : Nat} {dflt : Nat → BitVec n} {m : List (Nat × BitVec n)} {a b lo : Nat} {v : BitVec n}

theorem listErase_absent : ∀ e ∈ listErase m a, e.1 ≠ a := by
  induction m with
  | nil => simp [listErase]
  | cons e m ih =>
    obtain ⟨k, x⟩ := e
    simp only [listErase]
    split
    · exact ih
    · next h =>
      intro e he
      rcases List.mem_cons.mp he with rfl | he
      · exact h
      · exact ih e he

theorem mem_of_mem_listErase : ∀ e ∈ listErase m a, e ∈ m := by
  induction m with
  | nil => simp [listErase]
  | cons e m ih =>
    obtain ⟨k, x⟩ := e
    simp only [listErase]
    split
    · exact fun e he => List.mem_cons_of_mem _ (ih e he)
    · intro e he
      rcases List.mem_cons.mp he with rfl | he
      · exact List.mem_cons_self
      · exact List.mem_cons_of_mem _ (ih e he)

theorem mem_listInsert : ∀ e ∈ listInsert m a v, e = (a, v) ∨ e ∈ m := by
  induction m with
  | nil => simp [listInsert]
  | cons e m ih =>
    obtain ⟨k, x⟩ := e
    simp only [listInsert]
    split
    · intro e he
      simpa using he
    · intro e he
      rcases List.mem_cons.mp he with rfl | he
      · exact .inr List.mem_cons_self
      · exact (ih e he).imp id (List.mem_cons_of_mem _)

theorem mem_listWrite : ∀ e ∈ listWrite dflt m a v, e = (a, v) ∨ e ∈ m := by
  intro e he
  unfold listWrite at he
  split at he
  · exact .inr (mem_of_mem_listErase e he)
  · exact (mem_listInsert e he).imp id (mem_of_mem_listErase e)

theorem listRead_listErase :
    listRead dflt (listErase m a) b = if b = a then dflt b else listRead dflt m b := by
  induction m with
  | nil => simp [listErase, listRead]
  | cons e m ih =>
    obtain ⟨k, x⟩ := e
    simp only [listErase]
    split
    · next h =>
      subst h
      simp only [ih, listRead]
      split <;> rfl
    · next h =>
      simp only [listRead, ih]
      split
      · next hb =>
        subst hb
        simp [h]
      · rfl

theorem listRead_listInsert (h : ∀ e ∈ m, e.1 ≠ a) :
    listRead dflt (listInsert m a v) b = if b = a then v else listRead dflt m b := by
  induction m with
  | nil => simp [listInsert, listRead]
  | cons e m ih =>
    obtain ⟨k, x⟩ := e
    have hk : k ≠ a := h (k, x) List.mem_cons_self
    simp only [listInsert]
    split
    · simp [listRead]
    · simp only [listRead, ih fun e he => h e (List.mem_cons_of_mem _ he)]
      split
      · next hb =>
        subst hb
        simp [hk]
      · rfl

/-- A read after a write gives the value written at its address, and what was there elsewhere. -/
theorem listRead_listWrite :
    listRead dflt (listWrite dflt m a v) b = if b = a then v else listRead dflt m b := by
  unfold listWrite
  split
  · next h =>
    rw [listRead_listErase]
    split
    · next hb => rw [hb, h]
    · rfl
  · rw [listRead_listInsert listErase_absent, listRead_listErase]
    split <;> simp_all

theorem canonicalFrom_mono {lo' : Nat} (h : canonicalFrom dflt lo m = true) (hl : lo' ≤ lo) :
    canonicalFrom dflt lo' m = true := by
  cases m with
  | nil => rfl
  | cons e m =>
    simp only [canonicalFrom, Bool.and_eq_true, decide_eq_true_eq] at h ⊢
    exact ⟨⟨by omega, h.1.2⟩, h.2⟩

theorem canonicalFrom_listErase (h : canonicalFrom dflt lo m = true) :
    canonicalFrom dflt lo (listErase m a) = true := by
  induction m generalizing lo with
  | nil => rfl
  | cons e m ih =>
    obtain ⟨k, x⟩ := e
    simp only [canonicalFrom, Bool.and_eq_true, decide_eq_true_eq] at h
    simp only [listErase]
    split
    · exact ih (canonicalFrom_mono h.2 (by omega))
    · simp only [canonicalFrom, Bool.and_eq_true, decide_eq_true_eq]
      exact ⟨h.1, ih h.2⟩

theorem canonicalFrom_listInsert (h : canonicalFrom dflt lo m = true) (hl : lo ≤ a) (hv : v ≠ dflt a)
    (ha : ∀ e ∈ m, e.1 ≠ a) : canonicalFrom dflt lo (listInsert m a v) = true := by
  induction m generalizing lo with
  | nil => simp [listInsert, canonicalFrom, hl, hv]
  | cons e m ih =>
    obtain ⟨k, x⟩ := e
    have hk : k ≠ a := ha (k, x) List.mem_cons_self
    simp only [canonicalFrom, Bool.and_eq_true, decide_eq_true_eq] at h
    simp only [listInsert]
    split
    · simp only [canonicalFrom, Bool.and_eq_true, decide_eq_true_eq, bne_iff_ne]
      exact ⟨⟨hl, hv⟩, ⟨⟨by omega, by simpa using h.1.2⟩, h.2⟩⟩
    · simp only [canonicalFrom, Bool.and_eq_true, decide_eq_true_eq]
      exact ⟨h.1, ih h.2 (by omega) fun e he => ha e (List.mem_cons_of_mem _ he)⟩

/-- Every write keeps the canonical form. -/
theorem canonicalFrom_listWrite (h : canonicalFrom dflt lo m = true) (hl : lo ≤ a) :
    canonicalFrom dflt lo (listWrite dflt m a v) = true := by
  unfold listWrite
  split
  · exact canonicalFrom_listErase h
  · next hv => exact canonicalFrom_listInsert (canonicalFrom_listErase h) hl hv listErase_absent

theorem listRead_below (h : canonicalFrom dflt lo m = true) (hb : b < lo) :
    listRead dflt m b = dflt b := by
  induction m generalizing lo with
  | nil => rfl
  | cons e m ih =>
    obtain ⟨k, x⟩ := e
    simp only [canonicalFrom, Bool.and_eq_true, decide_eq_true_eq] at h
    simp only [listRead]
    rw [if_neg (by omega)]
    exact ih h.2 (by omega)

/-- Two canonical lists with the same contents are the same list. -/
theorem canonicalFrom_ext {m' : List (Nat × BitVec n)} (h : canonicalFrom dflt lo m = true)
    (h' : canonicalFrom dflt lo m' = true) (heq : ∀ b, listRead dflt m b = listRead dflt m' b) :
    m = m' := by
  induction m generalizing lo m' with
  | nil =>
    cases m' with
    | nil => rfl
    | cons e m' =>
      obtain ⟨k, x⟩ := e
      simp only [canonicalFrom, Bool.and_eq_true, bne_iff_ne] at h'
      exact absurd (by simpa [listRead] using (heq k).symm) h'.1.2
  | cons e m ih =>
    obtain ⟨k, x⟩ := e
    have hc := h
    simp only [canonicalFrom, Bool.and_eq_true, bne_iff_ne, decide_eq_true_eq] at h
    cases m' with
    | nil => exact absurd (by simpa [listRead] using heq k) h.1.2
    | cons e' m' =>
      obtain ⟨k', x'⟩ := e'
      have hc' := h'
      simp only [canonicalFrom, Bool.and_eq_true, bne_iff_ne, decide_eq_true_eq] at h'
      have hkk : k = k' := by
        rcases Nat.lt_trichotomy k k' with hlt | rfl | hlt
        · have hr := heq k
          simp only [listRead, if_neg (Nat.ne_of_lt hlt)] at hr
          rw [listRead_below h'.2 (by omega)] at hr
          exact absurd hr h.1.2
        · rfl
        · have hr := heq k'
          simp only [listRead, if_neg (Nat.ne_of_lt hlt)] at hr
          rw [listRead_below h.2 (by omega)] at hr
          exact absurd hr.symm h'.1.2
      subst hkk
      have hx : x = x' := by simpa [listRead] using heq k
      subst hx
      congr 1
      refine ih h.2 h'.2 fun b => ?_
      rcases Nat.lt_or_ge b (k + 1) with hb | hb
      · rw [listRead_below h.2 hb, listRead_below h'.2 hb]
      · have := heq b
        simpa only [listRead, if_neg (show b ≠ k by omega)] using this

/-- The register file's canonical form is kept by every write but to the PC windows' addresses. -/
theorem Memory.wf_write {m : List Host.Cell} {p v : Byte} (h : Memory.wf m = true)
    (h2 : p ≠ pclAddr) (hA : p ≠ pclathAddr) :
    Memory.wf (listWrite resetCell m p.toNat v) = true := by
  simp only [Memory.wf, Bool.and_eq_true, List.all_eq_true, decide_eq_true_eq, bne_iff_ne] at h ⊢
  refine ⟨canonicalFrom_listWrite h.1 (Nat.zero_le _), fun e he => ?_⟩
  rcases mem_listWrite e he with rfl | he
  · have hlt : p.toNat < 256 := p.isLt
    refine ⟨⟨hlt, fun hp => h2 (BitVec.eq_of_toNat_eq hp)⟩, fun hp => hA (BitVec.eq_of_toNat_eq hp)⟩
  · exact h.2 e he

/-- Program memory's canonical form is kept by every write inside it. -/
theorem ProgMemory.wf_write {m : List (Nat × ProgWord)} {a : Nat} {w : ProgWord}
    (h : ProgMemory.wf m = true) (ha : a < progWords) :
    ProgMemory.wf (listWrite resetWord m a w) = true := by
  simp only [ProgMemory.wf, Bool.and_eq_true, List.all_eq_true, decide_eq_true_eq] at h ⊢
  refine ⟨canonicalFrom_listWrite h.1 (Nat.zero_le _), fun e he => ?_⟩
  rcases mem_listWrite e he with rfl | he
  · exact ha
  · exact h.2 e he

end Sys2Proof.Machine
end

