-- ==== Sys2Proof/Laws/State.lean ====
section
/-! SUPPORT. One lemma per field per update, true by `rfl`. -/

namespace Sys2Proof.Machine

variable (s : State)

@[simp] theorem State.setCell_w (p v : Byte) : (s.setCell p v).w = s.w := rfl
@[simp] theorem State.setCell_pc (p v : Byte) : (s.setCell p v).pc = s.pc := rfl
@[simp] theorem State.setCell_cells (p v : Byte) : (s.setCell p v).cells = listWrite resetCell s.cells p.toNat v := rfl
@[simp] theorem State.setCell_stk (p v : Byte) : (s.setCell p v).stk = s.stk := rfl
@[simp] theorem State.setCell_sp (p v : Byte) : (s.setCell p v).sp = s.sp := rfl
@[simp] theorem State.setCell_pre (p v : Byte) : (s.setCell p v).pre = s.pre := rfl
@[simp] theorem State.setCell_wdt (p v : Byte) : (s.setCell p v).wdt = s.wdt := rfl
@[simp] theorem State.setCell_cyc (p v : Byte) : (s.setCell p v).cyc = s.cyc := rfl
@[simp] theorem State.setCell_prog (p v : Byte) : (s.setCell p v).prog = s.prog := rfl
@[simp] theorem State.setCell_inputs (p v : Byte) : (s.setCell p v).inputs = s.inputs := rfl

@[simp] theorem State.setCellBit_w (p : Byte) (j : Nat) (b : Bool) : (s.setCellBit p j b).w = s.w := rfl
@[simp] theorem State.setCellBit_pc (p : Byte) (j : Nat) (b : Bool) : (s.setCellBit p j b).pc = s.pc := rfl
@[simp] theorem State.setCellBit_stk (p : Byte) (j : Nat) (b : Bool) : (s.setCellBit p j b).stk = s.stk := rfl
@[simp] theorem State.setCellBit_sp (p : Byte) (j : Nat) (b : Bool) : (s.setCellBit p j b).sp = s.sp := rfl
@[simp] theorem State.setCellBit_pre (p : Byte) (j : Nat) (b : Bool) : (s.setCellBit p j b).pre = s.pre := rfl
@[simp] theorem State.setCellBit_wdt (p : Byte) (j : Nat) (b : Bool) : (s.setCellBit p j b).wdt = s.wdt := rfl
@[simp] theorem State.setCellBit_cyc (p : Byte) (j : Nat) (b : Bool) : (s.setCellBit p j b).cyc = s.cyc := rfl
@[simp] theorem State.setCellBit_prog (p : Byte) (j : Nat) (b : Bool) : (s.setCellBit p j b).prog = s.prog := rfl
@[simp] theorem State.setCellBit_inputs (p : Byte) (j : Nat) (b : Bool) : (s.setCellBit p j b).inputs = s.inputs := rfl

@[simp] theorem State.setZ_w (z : Bool) : (s.setZ z).w = s.w := rfl
@[simp] theorem State.setZ_pc (z : Bool) : (s.setZ z).pc = s.pc := rfl
@[simp] theorem State.setZ_stk (z : Bool) : (s.setZ z).stk = s.stk := rfl
@[simp] theorem State.setZ_sp (z : Bool) : (s.setZ z).sp = s.sp := rfl
@[simp] theorem State.setZ_pre (z : Bool) : (s.setZ z).pre = s.pre := rfl
@[simp] theorem State.setZ_wdt (z : Bool) : (s.setZ z).wdt = s.wdt := rfl
@[simp] theorem State.setZ_cyc (z : Bool) : (s.setZ z).cyc = s.cyc := rfl
@[simp] theorem State.setZ_prog (z : Bool) : (s.setZ z).prog = s.prog := rfl
@[simp] theorem State.setZ_inputs (z : Bool) : (s.setZ z).inputs = s.inputs := rfl

@[simp] theorem State.setC_w (c : Bool) : (s.setC c).w = s.w := rfl
@[simp] theorem State.setC_pc (c : Bool) : (s.setC c).pc = s.pc := rfl
@[simp] theorem State.setC_stk (c : Bool) : (s.setC c).stk = s.stk := rfl
@[simp] theorem State.setC_sp (c : Bool) : (s.setC c).sp = s.sp := rfl
@[simp] theorem State.setC_pre (c : Bool) : (s.setC c).pre = s.pre := rfl
@[simp] theorem State.setC_wdt (c : Bool) : (s.setC c).wdt = s.wdt := rfl
@[simp] theorem State.setC_cyc (c : Bool) : (s.setC c).cyc = s.cyc := rfl
@[simp] theorem State.setC_prog (c : Bool) : (s.setC c).prog = s.prog := rfl
@[simp] theorem State.setC_inputs (c : Bool) : (s.setC c).inputs = s.inputs := rfl

@[simp] theorem State.setCDCZ_w (c dc z : Bool) : (s.setCDCZ c dc z).w = s.w := rfl
@[simp] theorem State.setCDCZ_pc (c dc z : Bool) : (s.setCDCZ c dc z).pc = s.pc := rfl
@[simp] theorem State.setCDCZ_stk (c dc z : Bool) : (s.setCDCZ c dc z).stk = s.stk := rfl
@[simp] theorem State.setCDCZ_sp (c dc z : Bool) : (s.setCDCZ c dc z).sp = s.sp := rfl
@[simp] theorem State.setCDCZ_pre (c dc z : Bool) : (s.setCDCZ c dc z).pre = s.pre := rfl
@[simp] theorem State.setCDCZ_wdt (c dc z : Bool) : (s.setCDCZ c dc z).wdt = s.wdt := rfl
@[simp] theorem State.setCDCZ_cyc (c dc z : Bool) : (s.setCDCZ c dc z).cyc = s.cyc := rfl
@[simp] theorem State.setCDCZ_prog (c dc z : Bool) : (s.setCDCZ c dc z).prog = s.prog := rfl
@[simp] theorem State.setCDCZ_inputs (c dc z : Bool) : (s.setCDCZ c dc z).inputs = s.inputs := rfl

@[simp] theorem State.setW_w (v : Byte) : (s.setW v).w = v := rfl
@[simp] theorem State.setW_pc (v : Byte) : (s.setW v).pc = s.pc := rfl
@[simp] theorem State.setW_cells (v : Byte) : (s.setW v).cells = s.cells := rfl
@[simp] theorem State.setW_stk (v : Byte) : (s.setW v).stk = s.stk := rfl
@[simp] theorem State.setW_sp (v : Byte) : (s.setW v).sp = s.sp := rfl
@[simp] theorem State.setW_pre (v : Byte) : (s.setW v).pre = s.pre := rfl
@[simp] theorem State.setW_wdt (v : Byte) : (s.setW v).wdt = s.wdt := rfl
@[simp] theorem State.setW_cyc (v : Byte) : (s.setW v).cyc = s.cyc := rfl
@[simp] theorem State.setW_prog (v : Byte) : (s.setW v).prog = s.prog := rfl
@[simp] theorem State.setW_inputs (v : Byte) : (s.setW v).inputs = s.inputs := rfl

@[simp] theorem State.push_w (v : PcWord) : (s.push v).w = s.w := rfl
@[simp] theorem State.push_pc (v : PcWord) : (s.push v).pc = s.pc := rfl
@[simp] theorem State.push_cells (v : PcWord) : (s.push v).cells = s.cells := rfl
@[simp] theorem State.push_stk (v : PcWord) : (s.push v).stk = s.stk.set s.sp.toNat v s.sp.isLt := rfl
@[simp] theorem State.push_sp (v : PcWord) : (s.push v).sp = s.sp + 1 := rfl
@[simp] theorem State.push_pre (v : PcWord) : (s.push v).pre = s.pre := rfl
@[simp] theorem State.push_wdt (v : PcWord) : (s.push v).wdt = s.wdt := rfl
@[simp] theorem State.push_cyc (v : PcWord) : (s.push v).cyc = s.cyc := rfl
@[simp] theorem State.push_prog (v : PcWord) : (s.push v).prog = s.prog := rfl
@[simp] theorem State.push_inputs (v : PcWord) : (s.push v).inputs = s.inputs := rfl

@[simp] theorem State.popState_w : (s.popState).w = s.w := rfl
@[simp] theorem State.popState_pc : (s.popState).pc = s.pc := rfl
@[simp] theorem State.popState_cells : (s.popState).cells = s.cells := rfl
@[simp] theorem State.popState_stk : (s.popState).stk = s.stk := rfl
@[simp] theorem State.popState_sp : (s.popState).sp = s.sp - 1 := rfl
@[simp] theorem State.popState_pre : (s.popState).pre = s.pre := rfl
@[simp] theorem State.popState_wdt : (s.popState).wdt = s.wdt := rfl
@[simp] theorem State.popState_cyc : (s.popState).cyc = s.cyc := rfl
@[simp] theorem State.popState_prog : (s.popState).prog = s.prog := rfl
@[simp] theorem State.popState_inputs : (s.popState).inputs = s.inputs := rfl

@[simp] theorem State.popPc_w : (s.popPc).w = s.w := rfl
@[simp] theorem State.popPc_pc : (s.popPc).pc = s.popValue := rfl
@[simp] theorem State.popPc_cells : (s.popPc).cells = s.cells := rfl
@[simp] theorem State.popPc_stk : (s.popPc).stk = s.stk := rfl
@[simp] theorem State.popPc_sp : (s.popPc).sp = s.sp - 1 := rfl
@[simp] theorem State.popPc_pre : (s.popPc).pre = s.pre := rfl
@[simp] theorem State.popPc_wdt : (s.popPc).wdt = s.wdt := rfl
@[simp] theorem State.popPc_cyc : (s.popPc).cyc = s.cyc := rfl
@[simp] theorem State.popPc_prog : (s.popPc).prog = s.prog := rfl
@[simp] theorem State.popPc_inputs : (s.popPc).inputs = s.inputs := rfl

@[simp] theorem State.progWrite_w (a : BitVec 10) (word : ProgWord) : (s.progWrite a word).w = s.w := rfl
@[simp] theorem State.progWrite_pc (a : BitVec 10) (word : ProgWord) : (s.progWrite a word).pc = s.pc := rfl
@[simp] theorem State.progWrite_cells (a : BitVec 10) (word : ProgWord) : (s.progWrite a word).cells = s.cells := rfl
@[simp] theorem State.progWrite_stk (a : BitVec 10) (word : ProgWord) : (s.progWrite a word).stk = s.stk := rfl
@[simp] theorem State.progWrite_sp (a : BitVec 10) (word : ProgWord) : (s.progWrite a word).sp = s.sp := rfl
@[simp] theorem State.progWrite_pre (a : BitVec 10) (word : ProgWord) : (s.progWrite a word).pre = s.pre := rfl
@[simp] theorem State.progWrite_wdt (a : BitVec 10) (word : ProgWord) : (s.progWrite a word).wdt = s.wdt := rfl
@[simp] theorem State.progWrite_cyc (a : BitVec 10) (word : ProgWord) : (s.progWrite a word).cyc = s.cyc := rfl
@[simp] theorem State.progWrite_prog (a : BitVec 10) (word : ProgWord) : (s.progWrite a word).prog = listWrite resetWord s.prog a.toNat word := rfl
@[simp] theorem State.progWrite_inputs (a : BitVec 10) (word : ProgWord) : (s.progWrite a word).inputs = s.inputs := rfl

@[simp] theorem State.progReset_w : (s.progReset).w = s.w := rfl
@[simp] theorem State.progReset_pc : (s.progReset).pc = s.pc := rfl
@[simp] theorem State.progReset_cells : (s.progReset).cells = s.cells := rfl
@[simp] theorem State.progReset_stk : (s.progReset).stk = s.stk := rfl
@[simp] theorem State.progReset_sp : (s.progReset).sp = s.sp := rfl
@[simp] theorem State.progReset_pre : (s.progReset).pre = s.pre := rfl
@[simp] theorem State.progReset_wdt : (s.progReset).wdt = s.wdt := rfl
@[simp] theorem State.progReset_cyc : (s.progReset).cyc = s.cyc := rfl
@[simp] theorem State.progReset_prog : (s.progReset).prog = [] := rfl
@[simp] theorem State.progReset_inputs : (s.progReset).inputs = s.inputs := rfl

@[simp] theorem State.interruptEntry_w : (s.interruptEntry).w = s.w := rfl
@[simp] theorem State.interruptEntry_pc : (s.interruptEntry).pc = intVector := rfl
@[simp] theorem State.interruptEntry_stk : (s.interruptEntry).stk = s.stk.set s.sp.toNat s.pc s.sp.isLt := rfl
@[simp] theorem State.interruptEntry_sp : (s.interruptEntry).sp = s.sp + 1 := rfl
@[simp] theorem State.interruptEntry_pre : (s.interruptEntry).pre = s.pre := rfl
@[simp] theorem State.interruptEntry_wdt : (s.interruptEntry).wdt = s.wdt := rfl
@[simp] theorem State.interruptEntry_cyc : (s.interruptEntry).cyc = s.cyc + 1 := rfl
@[simp] theorem State.interruptEntry_prog : (s.interruptEntry).prog = s.prog := rfl
@[simp] theorem State.interruptEntry_inputs : (s.interruptEntry).inputs = s.inputs := rfl

@[simp] theorem State.takeInterrupt_w (flag : Nat) : (s.takeInterrupt flag).w = s.w := rfl
@[simp] theorem State.takeInterrupt_pc (flag : Nat) : (s.takeInterrupt flag).pc = intVector := rfl
@[simp] theorem State.takeInterrupt_stk (flag : Nat) : (s.takeInterrupt flag).stk = s.stk.set s.sp.toNat s.pc s.sp.isLt := rfl
@[simp] theorem State.takeInterrupt_sp (flag : Nat) : (s.takeInterrupt flag).sp = s.sp + 1 := rfl
@[simp] theorem State.takeInterrupt_pre (flag : Nat) : (s.takeInterrupt flag).pre = s.pre := rfl
@[simp] theorem State.takeInterrupt_wdt (flag : Nat) : (s.takeInterrupt flag).wdt = s.wdt := rfl
@[simp] theorem State.takeInterrupt_cyc (flag : Nat) : (s.takeInterrupt flag).cyc = s.cyc + 1 := rfl
@[simp] theorem State.takeInterrupt_prog (flag : Nat) : (s.takeInterrupt flag).prog = s.prog := rfl
@[simp] theorem State.takeInterrupt_inputs (flag : Nat) : (s.takeInterrupt flag).inputs = s.inputs := rfl

@[simp] theorem State.returnFromInterrupt_w : (s.returnFromInterrupt).w = s.w := rfl
@[simp] theorem State.returnFromInterrupt_pc : (s.returnFromInterrupt).pc = s.popValue := rfl
@[simp] theorem State.returnFromInterrupt_stk : (s.returnFromInterrupt).stk = s.stk := rfl
@[simp] theorem State.returnFromInterrupt_sp : (s.returnFromInterrupt).sp = s.sp - 1 := rfl
@[simp] theorem State.returnFromInterrupt_pre : (s.returnFromInterrupt).pre = s.pre := rfl
@[simp] theorem State.returnFromInterrupt_wdt : (s.returnFromInterrupt).wdt = s.wdt := rfl
@[simp] theorem State.returnFromInterrupt_cyc : (s.returnFromInterrupt).cyc = s.cyc := rfl
@[simp] theorem State.returnFromInterrupt_prog : (s.returnFromInterrupt).prog = s.prog := rfl
@[simp] theorem State.returnFromInterrupt_inputs : (s.returnFromInterrupt).inputs = s.inputs := rfl

@[simp] theorem State.softReset_w : (s.softReset).w = s.w := rfl
@[simp] theorem State.softReset_pc : (s.softReset).pc = 0 := rfl
@[simp] theorem State.softReset_stk : (s.softReset).stk = Vector.replicate 8 0 := rfl
@[simp] theorem State.softReset_sp : (s.softReset).sp = 0 := rfl
@[simp] theorem State.softReset_pre : (s.softReset).pre = 0 := rfl
@[simp] theorem State.softReset_wdt : (s.softReset).wdt = 0 := rfl
@[simp] theorem State.softReset_cyc : (s.softReset).cyc = 0 := rfl
@[simp] theorem State.softReset_prog : (s.softReset).prog = s.prog := rfl
@[simp] theorem State.softReset_inputs : (s.softReset).inputs = s.inputs := rfl

@[simp] theorem State.retireBranch_w : (s.retireBranch).w = s.w := rfl
@[simp] theorem State.retireBranch_pc : (s.retireBranch).pc = s.pc := rfl
@[simp] theorem State.retireBranch_cells : (s.retireBranch).cells = s.cells := rfl
@[simp] theorem State.retireBranch_stk : (s.retireBranch).stk = s.stk := rfl
@[simp] theorem State.retireBranch_sp : (s.retireBranch).sp = s.sp := rfl
@[simp] theorem State.retireBranch_pre : (s.retireBranch).pre = s.pre := rfl
@[simp] theorem State.retireBranch_wdt : (s.retireBranch).wdt = s.wdt := rfl
@[simp] theorem State.retireBranch_cyc : (s.retireBranch).cyc = s.cyc + 2 := rfl
@[simp] theorem State.retireBranch_prog : (s.retireBranch).prog = s.prog := rfl
@[simp] theorem State.retireBranch_inputs : (s.retireBranch).inputs = s.inputs := rfl

@[simp] theorem State.popInput_w : (s.popInput).w = s.w := rfl
@[simp] theorem State.popInput_pc : (s.popInput).pc = s.pc := rfl
@[simp] theorem State.popInput_cells : (s.popInput).cells = s.cells := rfl
@[simp] theorem State.popInput_stk : (s.popInput).stk = s.stk := rfl
@[simp] theorem State.popInput_sp : (s.popInput).sp = s.sp := rfl
@[simp] theorem State.popInput_pre : (s.popInput).pre = s.pre := rfl
@[simp] theorem State.popInput_wdt : (s.popInput).wdt = s.wdt := rfl
@[simp] theorem State.popInput_cyc : (s.popInput).cyc = s.cyc := rfl
@[simp] theorem State.popInput_prog : (s.popInput).prog = s.prog := rfl
@[simp] theorem State.popInput_inputs : (s.popInput).inputs = s.inputs.tail := rfl

@[simp] theorem State.cell_setW (v : Byte) (q : Byte) : (s.setW v).cell q = s.cell q := rfl
@[simp] theorem State.cell_push (v : PcWord) (q : Byte) : (s.push v).cell q = s.cell q := rfl
@[simp] theorem State.cell_popState (q : Byte) : (s.popState).cell q = s.cell q := rfl
@[simp] theorem State.cell_popPc (q : Byte) : (s.popPc).cell q = s.cell q := rfl
@[simp] theorem State.cell_progWrite (a : BitVec 10) (word : ProgWord) (q : Byte) : (s.progWrite a word).cell q = s.cell q := rfl
@[simp] theorem State.cell_progReset (q : Byte) : (s.progReset).cell q = s.cell q := rfl
@[simp] theorem State.cell_retireBranch (q : Byte) : (s.retireBranch).cell q = s.cell q := rfl
@[simp] theorem State.cell_popInput (q : Byte) : (s.popInput).cell q = s.cell q := rfl

end Sys2Proof.Machine
end

