-- ==== Sys2Proof/Laws/Cells.lean ====
section
/-! SUPPORT. The cells, the two PC windows and the addressing pipeline: what each operation does to what
is read afterwards. -/

namespace Sys2Proof.Machine

variable (s : State)

/-! ## Bits of a byte -/

theorem getLsbD_withBit (v : Byte) (j i : Nat) (b : Bool) (hi : i < 8) :
    (withBit v j b).getLsbD i = if i = j then b else v.getLsbD i := by
  unfold withBit
  by_cases hij : i = j
  · subst hij
    cases b <;> simp [hi]
  · cases b
    · simp only [Bool.false_eq_true, if_false, BitVec.getLsbD_and, BitVec.getLsbD_not, hi, decide_true,
        Bool.true_and, BitVec.getLsbD_shiftLeft, hij]
      by_cases hlt : i < j
      · simp [hlt]
      · have : i - j ≠ 0 := by omega
        simp [hlt, BitVec.getLsbD_one, this]
    · simp only [if_true, BitVec.getLsbD_or, BitVec.getLsbD_shiftLeft, hi, decide_true, Bool.true_and, hij,
        if_false]
      by_cases hlt : i < j
      · simp [hlt]
      · have : i - j ≠ 0 := by omega
        simp [BitVec.getLsbD_one, this]

/-! ## Physical cells -/

/-- A direct read after a direct write. -/
@[simp] theorem State.cell_setCell (p v q : Byte) :
    (s.setCell p v).cell q = if q = p then v else s.cell q := by
  unfold State.cell State.setCell
  rw [listRead_listWrite]
  by_cases h : q = p
  · simp [h]
  · simp [h, BitVec.toNat_inj]

theorem State.cell_setCell_ne {p q : Byte} (v : Byte) (h : q ≠ p) : (s.setCell p v).cell q = s.cell q := by
  simp [h]

theorem State.cell_setCellBit (p : Byte) (j : Nat) (b : Bool) (q : Byte) :
    (s.setCellBit p j b).cell q = if q = p then withBit (s.cell p) j b else s.cell q :=
  s.cell_setCell p _ q

@[simp] theorem State.cell_setCellBit_ne {p q : Byte} (j : Nat) (b : Bool) (h : q ≠ p) :
    (s.setCellBit p j b).cell q = s.cell q := by
  simp [State.cell_setCellBit, h]

/-- The bits of a cell after one bit of a cell was written. -/
theorem State.cellBit_setCellBit (p : Byte) (j : Nat) (b : Bool) (q : Byte) (i : Nat) (hi : i < 8) :
    (s.setCellBit p j b).cellBit q i = if q = p ∧ i = j then b else s.cellBit q i := by
  unfold State.cellBit
  rw [State.cell_setCellBit]
  by_cases hq : q = p
  · subst hq
    simp [getLsbD_withBit _ _ _ _ hi]
  · simp [hq]

/-! ## The PC windows -/

@[simp] theorem State.cellRead_pcl : s.cellRead 0x02 = s.pc.extractLsb' 0 8 := rfl

@[simp] theorem State.cellRead_pclath : s.cellRead 0x0A = (s.pc.extractLsb' 8 5).setWidth 8 := rfl

theorem State.cellRead_cell {p : Byte} (h2 : p ≠ pclAddr) (hA : p ≠ pclathAddr) :
    s.cellRead p = s.cell p := by
  simp [State.cellRead, h2, hA]

/-- Two states that agree on PC and on the cells agree on every read. -/
theorem State.cellRead_congr {t : State} (hpc : t.pc = s.pc) {p : Byte} (h : t.cell p = s.cell p) :
    t.cellRead p = s.cellRead p := by
  simp [State.cellRead, hpc, h]

theorem State.cellWrite_pcl (v : Byte) :
    s.cellWrite pclAddr v = { s with pc := s.pc.extractLsb' 8 5 ++ v } := rfl

theorem State.cellWrite_pclath (v : Byte) :
    s.cellWrite pclathAddr v = { s with pc := v.extractLsb' 0 5 ++ s.pc.extractLsb' 0 8 } := rfl

theorem State.cellWrite_cell {p : Byte} (v : Byte) (h2 : p ≠ pclAddr) (hA : p ≠ pclathAddr) :
    s.cellWrite p v = s.setCell p v := by
  simp [State.cellWrite, h2, hA]

/-- The backing cells after a write: only a cell that is no PC window changes. -/
theorem State.cell_cellWrite (p v q : Byte) :
    (s.cellWrite p v).cell q
      = if p ≠ pclAddr ∧ p ≠ pclathAddr ∧ q = p then v else s.cell q := by
  by_cases h2 : p = pclAddr
  · subst h2; rfl
  · by_cases hA : p = pclathAddr
    · subst hA; rfl
    · rw [State.cellWrite_cell s v h2 hA, State.cell_setCell]
      simp [h2, hA]

/-- The low window of a PC built from its two parts. -/
theorem pcl_append (a : BitVec 5) (b : BitVec 8) : (a ++ b : PcWord).extractLsb' 0 8 = b := by
  refine BitVec.eq_of_toNat_eq ?_
  have hb := b.isLt
  have h := BitVec.toNat_append a b
  rw [← Nat.shiftLeft_add_eq_or_of_lt hb, Nat.shiftLeft_eq] at h
  rw [BitVec.extractLsb'_toNat, h, Nat.shiftRight_eq_div_pow]
  omega

/-- The high window of a PC built from its two parts. -/
theorem pclath_append (a : BitVec 5) (b : BitVec 8) : (a ++ b : PcWord).extractLsb' 8 5 = a := by
  refine BitVec.eq_of_toNat_eq ?_
  have hb := b.isLt
  have ha := a.isLt
  have h := BitVec.toNat_append a b
  rw [← Nat.shiftLeft_add_eq_or_of_lt hb, Nat.shiftLeft_eq] at h
  rw [BitVec.extractLsb'_toNat, h, Nat.shiftRight_eq_div_pow]
  omega

/-- What PCLATH keeps of a byte. -/
theorem pclath_keeps (v : Byte) : (v.extractLsb' 0 5).setWidth 8 = v &&& 0x1F := by
  revert v
  decide

/-- Every read after a write: PCLATH keeps the low five bits of the value (R65). -/
theorem State.cellRead_cellWrite (p v q : Byte) :
    (s.cellWrite p v).cellRead q
      = if q = p then (if p = pclathAddr then v &&& 0x1F else v) else s.cellRead q := by
  by_cases h2 : p = pclAddr
  · subst h2
    rw [State.cellWrite_pcl]
    by_cases hq : q = pclAddr
    · subst hq; exact pcl_append _ _
    · by_cases hA : q = pclathAddr
      · subst hA
        exact congrArg (BitVec.setWidth 8) (pclath_append _ _)
      · rw [if_neg hq, State.cellRead_cell _ hq hA, State.cellRead_cell _ hq hA]; rfl
  · by_cases hA : p = pclathAddr
    · subst hA
      rw [State.cellWrite_pclath]
      by_cases hq : q = pclathAddr
      · subst hq
        exact (congrArg (BitVec.setWidth 8) (pclath_append _ _)).trans (pclath_keeps v)
      · by_cases h2 : q = pclAddr
        · subst h2
          exact pcl_append _ _
        · rw [if_neg hq, State.cellRead_cell _ h2 hq, State.cellRead_cell _ h2 hq]; rfl
    · rw [State.cellWrite_cell s v h2 hA, if_neg hA]
      unfold State.cellRead
      simp only [State.cell_setCell, State.setCell_pc]
      split
      · next h => subst h; rw [if_neg (Ne.symm h2)]
      · split
        · next h => subst h; rw [if_neg (Ne.symm hA)]
        · rfl

@[simp] theorem State.cellWrite_w (p v : Byte) : (s.cellWrite p v).w = s.w := by
  unfold State.cellWrite; repeat' split
  all_goals rfl

@[simp] theorem State.cellWrite_stk (p v : Byte) : (s.cellWrite p v).stk = s.stk := by
  unfold State.cellWrite; repeat' split
  all_goals rfl

@[simp] theorem State.cellWrite_sp (p v : Byte) : (s.cellWrite p v).sp = s.sp := by
  unfold State.cellWrite; repeat' split
  all_goals rfl

@[simp] theorem State.cellWrite_pre (p v : Byte) : (s.cellWrite p v).pre = s.pre := by
  unfold State.cellWrite; repeat' split
  all_goals rfl

@[simp] theorem State.cellWrite_wdt (p v : Byte) : (s.cellWrite p v).wdt = s.wdt := by
  unfold State.cellWrite; repeat' split
  all_goals rfl

@[simp] theorem State.cellWrite_cyc (p v : Byte) : (s.cellWrite p v).cyc = s.cyc := by
  unfold State.cellWrite; repeat' split
  all_goals rfl

@[simp] theorem State.cellWrite_prog (p v : Byte) : (s.cellWrite p v).prog = s.prog := by
  unfold State.cellWrite; repeat' split
  all_goals rfl

@[simp] theorem State.cellWrite_inputs (p v : Byte) : (s.cellWrite p v).inputs = s.inputs := by
  unfold State.cellWrite; repeat' split
  all_goals rfl

/-- PC after a write of a cell that is no window. -/
theorem State.cellWrite_pc {p : Byte} (v : Byte) (h2 : p ≠ pclAddr) (hA : p ≠ pclathAddr) :
    (s.cellWrite p v).pc = s.pc := by
  rw [State.cellWrite_cell s v h2 hA]; rfl

/-! ## Canonical form -/

theorem State.wf_setCell {p v : Byte} (h : Memory.wf s.cells = true) (h2 : p ≠ pclAddr)
    (hA : p ≠ pclathAddr) : Memory.wf (s.setCell p v).cells = true :=
  Memory.wf_write h h2 hA

theorem State.wf_cellWrite (p v : Byte) (h : Memory.wf s.cells = true) :
    Memory.wf (s.cellWrite p v).cells = true := by
  by_cases h2 : p = pclAddr
  · subst h2; exact h
  · by_cases hA : p = pclathAddr
    · subst hA; exact h
    · rw [State.cellWrite_cell s v h2 hA]
      exact s.wf_setCell h h2 hA

theorem State.wf_setCellBit {p : Byte} (j : Nat) (b : Bool) (h : Memory.wf s.cells = true)
    (h2 : p ≠ pclAddr) (hA : p ≠ pclathAddr) : Memory.wf (s.setCellBit p j b).cells = true :=
  s.wf_setCell h h2 hA

end Sys2Proof.Machine
end

