-- ==== Sys2Proof/Laws/Decode.lean ====
section
/-! SUPPORT. Decoding of a word split into its high seven bits, which hold the opcode, and its low seven,
which hold `f`: the prefix tests and the fields in those terms. -/

namespace Sys2Proof

variable (hi lo : BitVec 7)

/-- The value of a split word. -/
theorem toNat_split : (hi ++ lo : ProgWord).toNat = hi.toNat * 128 + lo.toNat := by
  have h := BitVec.toNat_append hi lo
  rw [← Nat.shiftLeft_add_eq_or_of_lt lo.isLt, Nat.shiftLeft_eq] at h
  exact h

/-- Every word is such a split. -/
theorem word_split (w : ProgWord) : ∃ hi lo : BitVec 7, w = hi ++ lo := by
  refine ⟨w.extractLsb' 7 7, w.extractLsb' 0 7, BitVec.eq_of_toNat_eq ?_⟩
  have := w.isLt
  rw [toNat_split]
  simp only [BitVec.extractLsb'_toNat, Nat.shiftRight_eq_div_pow]
  omega

/-- A prefix of at most seven bits is a property of the high half. -/
theorem hasPrefix_append (n p : Nat) (hn : n ≤ 7) :
    hasPrefix (hi ++ lo) n p = (hi.toNat >>> (7 - n) == p) := by
  have hlo := lo.isLt
  have h : (hi ++ lo : ProgWord).toNat >>> (14 - n) = hi.toNat >>> (7 - n) := by
    rw [toNat_split, show 14 - n = 7 + (7 - n) by omega, Nat.shiftRight_add]
    congr 1
    rw [Nat.shiftRight_eq_div_pow]
    omega
  simp only [hasPrefix, h]

/-- The field `f`. -/
theorem field_f : (hi ++ lo : ProgWord).extractLsb' 0 7 = lo := by
  refine BitVec.eq_of_toNat_eq ?_
  have := lo.isLt
  simp only [BitVec.extractLsb'_toNat, toNat_split, Nat.shiftRight_eq_div_pow]
  omega

/-- The field `d`. -/
theorem field_d : (hi ++ lo : ProgWord).extractLsb' 7 1 = hi.extractLsb' 0 1 := by
  refine BitVec.eq_of_toNat_eq ?_
  have := lo.isLt
  simp only [BitVec.extractLsb'_toNat, toNat_split, Nat.shiftRight_eq_div_pow]
  omega

/-- The field `b`. -/
theorem field_b : (hi ++ lo : ProgWord).extractLsb' 7 3 = hi.extractLsb' 0 3 := by
  refine BitVec.eq_of_toNat_eq ?_
  have := lo.isLt
  simp only [BitVec.extractLsb'_toNat, toNat_split, Nat.shiftRight_eq_div_pow]
  omega

/-- The field `k`. -/
theorem field_k : (hi ++ lo : ProgWord).extractLsb' 0 8 = hi.extractLsb' 0 1 ++ lo := by
  refine BitVec.eq_of_toNat_eq ?_
  have hlo := lo.isLt
  have h := BitVec.toNat_append (hi.extractLsb' 0 1) lo
  rw [← Nat.shiftLeft_add_eq_or_of_lt hlo, Nat.shiftLeft_eq] at h
  refine Eq.trans ?_ h.symm
  simp only [BitVec.extractLsb'_toNat, toNat_split, Nat.shiftRight_eq_div_pow]
  omega

/-- The field `kbig`. -/
theorem field_kbig : (hi ++ lo : ProgWord).extractLsb' 0 11 = hi.extractLsb' 0 4 ++ lo := by
  refine BitVec.eq_of_toNat_eq ?_
  have hlo := lo.isLt
  have h := BitVec.toNat_append (hi.extractLsb' 0 4) lo
  rw [← Nat.shiftLeft_add_eq_or_of_lt hlo, Nat.shiftLeft_eq] at h
  refine Eq.trans ?_ h.symm
  simp only [BitVec.extractLsb'_toNat, toNat_split, Nat.shiftRight_eq_div_pow]
  omega

/-- One ignored bit above `k`. -/
theorem field_x1 : (hi ++ lo : ProgWord).extractLsb' 8 1 = hi.extractLsb' 1 1 := by
  refine BitVec.eq_of_toNat_eq ?_
  have := lo.isLt
  simp only [BitVec.extractLsb'_toNat, toNat_split, Nat.shiftRight_eq_div_pow]
  omega

/-- Two ignored bits above `k`. -/
theorem field_x2 : (hi ++ lo : ProgWord).extractLsb' 8 2 = hi.extractLsb' 1 2 := by
  refine BitVec.eq_of_toNat_eq ?_
  have := lo.isLt
  simp only [BitVec.extractLsb'_toNat, toNat_split, Nat.shiftRight_eq_div_pow]
  omega

/-- A split word equals another exactly when both halves do. -/
theorem append_eq_iff (a b : BitVec 7) : (hi ++ lo : ProgWord) = a ++ b ↔ hi = a ∧ lo = b := by
  have h1 := lo.isLt
  have h2 := b.isLt
  rw [← BitVec.toNat_inj, ← BitVec.toNat_inj, ← BitVec.toNat_inj, toNat_split, toNat_split]
  omega

/-- The decoder on a split word. -/
theorem decodeWord_append :
    decodeWord (hi ++ lo)
      = if hi = 0 ∧ lo = 0x08 then .ret
        else if hi = 0 ∧ lo = 0x09 then .retfie
        else if hi = 0 ∧ lo = 0x63 then .sleep
        else if hi = 0 ∧ lo = 0x64 then .clrwdt
        else if hi.toNat >>> 0 = 0b0000000 then .nop lo
        else if hi.toNat >>> 4 = 0b101 then .goto (hi.extractLsb' 0 4 ++ lo)
        else if hi.toNat >>> 4 = 0b100 then .call (hi.extractLsb' 0 4 ++ lo)
        else if hi.toNat >>> 3 = 0b1101 then .retlw (hi.extractLsb' 1 2) (hi.extractLsb' 0 1 ++ lo)
        else if hi.toNat >>> 1 = 0b000111 then .addwf (Dest.ofBit (hi.extractLsb' 0 1)) lo
        else if hi.toNat >>> 1 = 0b000101 then .andwf (Dest.ofBit (hi.extractLsb' 0 1)) lo
        else if hi.toNat >>> 0 = 0b0000011 then .clrf lo
        else if hi.toNat >>> 0 = 0b0000010 then .clrw lo
        else if hi.toNat >>> 1 = 0b001001 then .comf (Dest.ofBit (hi.extractLsb' 0 1)) lo
        else if hi.toNat >>> 1 = 0b000011 then .decf (Dest.ofBit (hi.extractLsb' 0 1)) lo
        else if hi.toNat >>> 1 = 0b001011 then .decfsz (Dest.ofBit (hi.extractLsb' 0 1)) lo
        else if hi.toNat >>> 1 = 0b001010 then .incf (Dest.ofBit (hi.extractLsb' 0 1)) lo
        else if hi.toNat >>> 1 = 0b001111 then .incfsz (Dest.ofBit (hi.extractLsb' 0 1)) lo
        else if hi.toNat >>> 1 = 0b000100 then .iorwf (Dest.ofBit (hi.extractLsb' 0 1)) lo
        else if hi.toNat >>> 1 = 0b001000 then .movf (Dest.ofBit (hi.extractLsb' 0 1)) lo
        else if hi.toNat >>> 0 = 0b0000001 then .movwf lo
        else if hi.toNat >>> 1 = 0b001101 then .rlf (Dest.ofBit (hi.extractLsb' 0 1)) lo
        else if hi.toNat >>> 1 = 0b001100 then .rrf (Dest.ofBit (hi.extractLsb' 0 1)) lo
        else if hi.toNat >>> 1 = 0b000010 then .subwf (Dest.ofBit (hi.extractLsb' 0 1)) lo
        else if hi.toNat >>> 1 = 0b001110 then .swapf (Dest.ofBit (hi.extractLsb' 0 1)) lo
        else if hi.toNat >>> 1 = 0b000110 then .xorwf (Dest.ofBit (hi.extractLsb' 0 1)) lo
        else if hi.toNat >>> 3 = 0b0100 then .bcf (hi.extractLsb' 0 3) lo
        else if hi.toNat >>> 3 = 0b0101 then .bsf (hi.extractLsb' 0 3) lo
        else if hi.toNat >>> 3 = 0b0110 then .btfsc (hi.extractLsb' 0 3) lo
        else if hi.toNat >>> 3 = 0b0111 then .btfss (hi.extractLsb' 0 3) lo
        else if hi.toNat >>> 2 = 0b11111 then .addlw (hi.extractLsb' 1 1) (hi.extractLsb' 0 1 ++ lo)
        else if hi.toNat >>> 1 = 0b111001 then .andlw (hi.extractLsb' 0 1 ++ lo)
        else if hi.toNat >>> 1 = 0b111000 then .iorlw (hi.extractLsb' 0 1 ++ lo)
        else if hi.toNat >>> 3 = 0b1100 then .movlw (hi.extractLsb' 1 2) (hi.extractLsb' 0 1 ++ lo)
        else if hi.toNat >>> 2 = 0b11110 then .sublw (hi.extractLsb' 1 1) (hi.extractLsb' 0 1 ++ lo)
        else if hi.toNat >>> 1 = 0b111010 then .xorlw (hi.extractLsb' 0 1 ++ lo)
        else .undecodable (hi.extractLsb' 0 1 ++ lo) := by
  have h8 : (0x0008 : ProgWord) = (0 : BitVec 7) ++ (0x08 : BitVec 7) := rfl
  have h9 : (0x0009 : ProgWord) = (0 : BitVec 7) ++ (0x09 : BitVec 7) := rfl
  have h63 : (0x0063 : ProgWord) = (0 : BitVec 7) ++ (0x63 : BitVec 7) := rfl
  have h64 : (0x0064 : ProgWord) = (0 : BitVec 7) ++ (0x64 : BitVec 7) := rfl
  unfold decodeWord
  rw [h8, h9, h63, h64]
  simp only [append_eq_iff, field_f, field_d, field_b, field_k, field_kbig, field_x1, field_x2]
  simp only [hasPrefix_append hi lo 7 _ (by decide), hasPrefix_append hi lo 6 _ (by decide),
    hasPrefix_append hi lo 5 _ (by decide), hasPrefix_append hi lo 4 _ (by decide),
    hasPrefix_append hi lo 3 _ (by decide), beq_iff_eq]

end Sys2Proof
end

