-- ==== Sys2Proof/Laws/Ops.lean ====
section
/-! SUPPORT. What each shared operation does, once: the fields it leaves, the cells it can change, its
cases, and that it keeps the canonical form. -/

namespace Sys2Proof.Machine

variable (s : State)

/-! ## Interrupt entry -/

/-- The cells after an interrupt was taken: its flag is set and GIE is cleared in INTCON. -/
theorem State.cell_takeInterrupt (flag : Nat) (q : Byte) :
    (s.takeInterrupt flag).cell q
      = if q = intconAddr then withBit (withBit (withBit (s.cell intconAddr) flag true) gieBit false) gieBit false
        else s.cell q := by
  show (((s.setCellBit intconAddr flag true).setCellBit intconAddr gieBit false).setCellBit intconAddr gieBit
    false).cell q = _
  simp only [State.cell_setCellBit, if_true]
  split <;> rfl

/-- Taking an interrupt changes no cell but INTCON. -/
@[simp] theorem State.cell_takeInterrupt_ne (flag : Nat) {q : Byte} (h : q ≠ intconAddr) :
    (s.takeInterrupt flag).cell q = s.cell q := by
  simp [State.cell_takeInterrupt, h]

/-- The bits of INTCON after an interrupt was taken. -/
theorem State.intcon_takeInterrupt (flag i : Nat) (hi : i < 8) :
    (s.takeInterrupt flag).cellBit intconAddr i
      = if i = gieBit then false else if i = flag then true else s.cellBit intconAddr i := by
  unfold State.cellBit
  rw [State.cell_takeInterrupt, if_pos rfl]
  simp only [getLsbD_withBit _ _ _ _ hi]
  split <;> simp_all

theorem State.wf_takeInterrupt (flag : Nat) (h : Memory.wf s.cells = true) :
    Memory.wf (s.takeInterrupt flag).cells = true := by
  have h1 := s.wf_setCellBit (p := intconAddr) flag true h (by decide) (by decide)
  have h2 := State.wf_setCellBit _ (p := intconAddr) gieBit false h1 (by decide) (by decide)
  exact State.wf_setCellBit _ (p := intconAddr) gieBit false h2 (by decide) (by decide)

/-! ## Timer0 -/

/-- A write of TMR0 leaves the interrupt enables. -/
@[simp] theorem State.interruptsEnabled_setCell_tmr0 (v : Byte) (e : Nat) :
    (s.setCell tmr0Addr v).interruptsEnabled e = s.interruptsEnabled e := by
  simp only [State.interruptsEnabled, State.cellBit, s.cell_setCell_ne v (show intconAddr ≠ tmr0Addr by decide)]

/-- Timer0 counts and no interrupt is taken. -/
theorem State.tmr0Increment_count
    (h : s.cell tmr0Addr ≠ 0xFF#8 ∨ s.interruptsEnabled t0ieBit = false) :
    s.tmr0Increment = s.setCell tmr0Addr (s.cell tmr0Addr + 1) := by
  simp only [State.tmr0Increment, State.interruptsEnabled_setCell_tmr0]
  rw [if_neg]
  rw [Bool.and_eq_true, beq_iff_eq]
  rintro ⟨h1, h2⟩
  exact h.elim (fun h => h h1) (fun h => by rw [h] at h2; cases h2)

/-- Timer0 overflows and its interrupt is taken. -/
theorem State.tmr0Increment_overflow (h : s.cell tmr0Addr = 0xFF#8)
    (he : s.interruptsEnabled t0ieBit = true) :
    s.tmr0Increment = (s.setCell tmr0Addr 0).takeInterrupt t0ifBit := by
  simp only [State.tmr0Increment, State.interruptsEnabled_setCell_tmr0, h, he]
  rfl

/-- The two cases of a Timer0 increment. -/
theorem State.tmr0Increment_cases :
    s.tmr0Increment = s.setCell tmr0Addr (s.cell tmr0Addr + 1)
      ∨ (s.cell tmr0Addr = 0xFF#8 ∧ s.interruptsEnabled t0ieBit = true
        ∧ s.tmr0Increment = (s.setCell tmr0Addr 0).takeInterrupt t0ifBit) := by
  by_cases h : s.cell tmr0Addr = 0xFF#8
  · cases he : s.interruptsEnabled t0ieBit
    · exact .inl (s.tmr0Increment_count (.inr he))
    · exact .inr ⟨h, rfl, s.tmr0Increment_overflow h he⟩
  · exact .inl (s.tmr0Increment_count (.inl h))

@[simp] theorem State.tmr0Increment_w : s.tmr0Increment.w = s.w := by
  rcases s.tmr0Increment_cases with h | ⟨-, -, h⟩ <;> rw [h] <;> rfl

@[simp] theorem State.tmr0Increment_pre : s.tmr0Increment.pre = s.pre := by
  rcases s.tmr0Increment_cases with h | ⟨-, -, h⟩ <;> rw [h] <;> rfl

@[simp] theorem State.tmr0Increment_wdt : s.tmr0Increment.wdt = s.wdt := by
  rcases s.tmr0Increment_cases with h | ⟨-, -, h⟩ <;> rw [h] <;> rfl

@[simp] theorem State.tmr0Increment_prog : s.tmr0Increment.prog = s.prog := by
  rcases s.tmr0Increment_cases with h | ⟨-, -, h⟩ <;> rw [h] <;> rfl

@[simp] theorem State.tmr0Increment_inputs : s.tmr0Increment.inputs = s.inputs := by
  rcases s.tmr0Increment_cases with h | ⟨-, -, h⟩ <;> rw [h] <;> rfl

/-- A Timer0 increment changes no cell but TMR0 and INTCON. -/
@[simp] theorem State.cell_tmr0Increment_ne {q : Byte} (h1 : q ≠ tmr0Addr) (hB : q ≠ intconAddr) :
    s.tmr0Increment.cell q = s.cell q := by
  rcases s.tmr0Increment_cases with h | ⟨-, -, h⟩ <;> rw [h]
  · exact s.cell_setCell_ne _ h1
  · rw [State.cell_takeInterrupt_ne _ _ hB]
    exact s.cell_setCell_ne _ h1

theorem State.wf_tmr0Increment (h : Memory.wf s.cells = true) : Memory.wf s.tmr0Increment.cells = true := by
  rcases s.tmr0Increment_cases with ht | ⟨-, -, ht⟩ <;> rw [ht]
  · exact s.wf_setCell h (by decide) (by decide)
  · exact State.wf_takeInterrupt _ _ (s.wf_setCell h (by decide) (by decide))

/-! ## The end of a step -/

/-- Phases 5 and 6 with T0CS set: CYC and PC only. -/
theorem State.retire_counter (skip : Bool) (cycles : Nat) (h : s.cellBit optionAddr t0csBit = true) :
    s.retire skip cycles
      = { s with cyc := s.cyc + cycles, pc := s.pc + 1 + (if skip then 1 else 0) } := by
  have h' : ({ s with cyc := s.cyc + cycles, pc := s.pc + 1 + (if skip then 1 else 0) } : State).cellBit
      optionAddr t0csBit = true := h
  simp only [State.retire, h', if_true]

/-- Phases 5 and 6 with T0CS clear: the timer tick follows. -/
theorem State.retire_internal (skip : Bool) (cycles : Nat) (h : s.cellBit optionAddr t0csBit = false) :
    s.retire skip cycles
      = ({ s with cyc := s.cyc + cycles, pc := s.pc + 1 + (if skip then 1 else 0) } : State).tmr0Increment := by
  have h' : ({ s with cyc := s.cyc + cycles, pc := s.pc + 1 + (if skip then 1 else 0) } : State).cellBit
      optionAddr t0csBit = false := h
  simp only [State.retire, h', Bool.false_eq_true, if_false]

@[simp] theorem State.retire_w (skip : Bool) (cycles : Nat) : (s.retire skip cycles).w = s.w := by
  cases h : s.cellBit optionAddr t0csBit
  · rw [s.retire_internal skip cycles h, State.tmr0Increment_w]
  · rw [s.retire_counter skip cycles h]

@[simp] theorem State.retire_pre (skip : Bool) (cycles : Nat) : (s.retire skip cycles).pre = s.pre := by
  cases h : s.cellBit optionAddr t0csBit
  · rw [s.retire_internal skip cycles h, State.tmr0Increment_pre]
  · rw [s.retire_counter skip cycles h]

@[simp] theorem State.retire_wdt (skip : Bool) (cycles : Nat) : (s.retire skip cycles).wdt = s.wdt := by
  cases h : s.cellBit optionAddr t0csBit
  · rw [s.retire_internal skip cycles h, State.tmr0Increment_wdt]
  · rw [s.retire_counter skip cycles h]

@[simp] theorem State.retire_prog (skip : Bool) (cycles : Nat) : (s.retire skip cycles).prog = s.prog := by
  cases h : s.cellBit optionAddr t0csBit
  · rw [s.retire_internal skip cycles h, State.tmr0Increment_prog]
  · rw [s.retire_counter skip cycles h]

@[simp] theorem State.retire_inputs (skip : Bool) (cycles : Nat) : (s.retire skip cycles).inputs = s.inputs := by
  cases h : s.cellBit optionAddr t0csBit
  · rw [s.retire_internal skip cycles h, State.tmr0Increment_inputs]
  · rw [s.retire_counter skip cycles h]

/-- The end of a step changes no cell but TMR0 and INTCON. -/
@[simp] theorem State.cell_retire_ne (skip : Bool) (cycles : Nat) {q : Byte} (h1 : q ≠ tmr0Addr)
    (hB : q ≠ intconAddr) : (s.retire skip cycles).cell q = s.cell q := by
  cases h : s.cellBit optionAddr t0csBit
  · rw [s.retire_internal skip cycles h, State.cell_tmr0Increment_ne _ h1 hB]
    rfl
  · rw [s.retire_counter skip cycles h]
    rfl

theorem State.wf_retire (skip : Bool) (cycles : Nat) (h : Memory.wf s.cells = true) :
    Memory.wf (s.retire skip cycles).cells = true := by
  cases ht : s.cellBit optionAddr t0csBit
  · rw [s.retire_internal skip cycles ht]
    exact State.wf_tmr0Increment _ h
  · rw [s.retire_counter skip cycles ht]
    exact h

/-! ## Destinations -/

@[simp] theorem State.writeDest_w (f : BitVec 7) (v : Byte) : s.writeDest .w f v = s.setW v := rfl

@[simp] theorem State.writeDest_f (f : BitVec 7) (v : Byte) :
    s.writeDest .f f v = s.cellWrite (s.fileCell f) v := rfl

theorem State.writeFile_eq (f : BitVec 7) (v : Byte) : s.writeFile f v = s.cellWrite (s.fileCell f) v := rfl

theorem State.readFile_eq (f : BitVec 7) : s.readFile f = s.cellRead (s.fileCell f) := rfl

theorem State.writeFileBit_eq (f : BitVec 7) (b : BitVec 3) (v : Bool) :
    s.writeFileBit f b v
      = s.cellWrite (s.fileCell f) (withBit (s.cellRead (s.fileCell f)) b.toNat v) := rfl

theorem State.wf_writeDest (d : Dest) (f : BitVec 7) (v : Byte) (h : Memory.wf s.cells = true) :
    Memory.wf (s.writeDest d f v).cells = true := by
  cases d
  · exact h
  · exact s.wf_cellWrite _ v h

theorem State.wf_setZ (z : Bool) (h : Memory.wf s.cells = true) : Memory.wf (s.setZ z).cells = true :=
  s.wf_setCellBit _ _ h (by decide) (by decide)

theorem State.wf_setC (c : Bool) (h : Memory.wf s.cells = true) : Memory.wf (s.setC c).cells = true :=
  s.wf_setCellBit _ _ h (by decide) (by decide)

theorem State.wf_setCDCZ (c dc z : Bool) (h : Memory.wf s.cells = true) :
    Memory.wf (s.setCDCZ c dc z).cells = true :=
  State.wf_setCellBit _ _ _
    (State.wf_setCellBit _ _ _ (s.wf_setCellBit _ _ h (by decide) (by decide)) (by decide) (by decide))
    (by decide) (by decide)

/-! ## Resets -/

/-- The cells after a reset (R252): STATUS keeps C, DC and Z; OPTION, TRISA, TRISB and INTCON have their
reset values; every other cell keeps its value. -/
theorem State.cell_softReset (q : Byte) :
    s.softReset.cell q
      = if q = intconAddr then 0x00#8 else if q = trisbAddr then 0xFF#8 else if q = trisaAddr then 0x1F#8
        else if q = optionAddr then 0xFF#8
        else if q = statusAddr then (s.cell statusAddr &&& 0x07#8) ||| 0x18#8 else s.cell q := by
  simp only [State.softReset, State.cell_setCell]
  rfl

theorem State.wf_softReset (h : Memory.wf s.cells = true) : Memory.wf s.softReset.cells = true := by
  unfold State.softReset
  refine State.wf_setCell _ ?_ (by decide) (by decide)
  refine State.wf_setCell _ ?_ (by decide) (by decide)
  refine State.wf_setCell _ ?_ (by decide) (by decide)
  refine State.wf_setCell _ ?_ (by decide) (by decide)
  exact State.wf_setCell _ h (by decide) (by decide)

theorem State.wf_foldl_zero (l : List Nat) (s : State) (h : Memory.wf s.cells = true) :
    Memory.wf (l.foldl (fun t p => t.cellWrite (BitVec.ofNat 8 p) 0#8) s).cells = true := by
  induction l generalizing s with
  | nil => exact h
  | cons p l ih => exact ih _ (s.wf_cellWrite _ _ h)

theorem State.wf_zeroCells (h : Memory.wf s.cells = true) : Memory.wf s.zeroCells.cells = true := by
  exact State.wf_foldl_zero (List.range 256) s h

theorem State.wf_powerOnReset (h : Memory.wf s.cells = true) : Memory.wf s.powerOnReset.cells = true := by
  have hz := s.wf_zeroCells h
  unfold State.powerOnReset
  generalize s.zeroCells = t at hz
  exact State.wf_softReset _ hz

/-- Zeroing the cells in a list: the cells in the list read 0, the others read as before. -/
theorem State.cellRead_foldl_zero (l : List Nat) (hl : ∀ p ∈ l, p < 256) (s : State) (q : Byte) :
    (l.foldl (fun t p => t.cellWrite (BitVec.ofNat 8 p) 0#8) s).cellRead q
      = if q.toNat ∈ l then 0 else s.cellRead q := by
  induction l generalizing s with
  | nil => simp
  | cons p l ih =>
    have hp : p < 256 := hl p (by simp)
    rw [List.foldl_cons, ih (fun a ha => hl a (by simp [ha])), State.cellRead_cellWrite]
    have hq : q = BitVec.ofNat 8 p ↔ q.toNat = p := by
      rw [← BitVec.toNat_inj, BitVec.toNat_ofNat, Nat.mod_eq_of_lt hp]
    by_cases h : q.toNat ∈ l
    · simp [h]
    · rw [if_neg h]
      by_cases h' : q.toNat = p
      · rw [if_pos (hq.2 h'), BitVec.zero_and, ite_self, if_pos (by simp [h'])]
        rfl
      · rw [if_neg (fun hc => h' (hq.1 hc)), if_neg (by simp [h, h'])]

/-- After zeroing every cell, every cell reads 0. -/
@[simp] theorem State.cellRead_zeroCells (q : Byte) : s.zeroCells.cellRead q = 0 := by
  unfold State.zeroCells
  rw [State.cellRead_foldl_zero _ (by simp)]
  simp [q.isLt]

/-- Zeroing cells leaves every field but PC and the cells. -/
theorem State.foldl_zero_keeps (l : List Nat) (s : State) :
    let t := l.foldl (fun t p => t.cellWrite (BitVec.ofNat 8 p) 0#8) s
    t.w = s.w ∧ t.wdt = s.wdt ∧ t.prog = s.prog ∧ t.inputs = s.inputs := by
  induction l generalizing s with
  | nil => exact ⟨rfl, rfl, rfl, rfl⟩
  | cons p l ih => simpa using ih (s.cellWrite (BitVec.ofNat 8 p) 0#8)

@[simp] theorem State.zeroCells_prog : s.zeroCells.prog = s.prog :=
  (State.foldl_zero_keeps (List.range 256) s).2.2.1

@[simp] theorem State.zeroCells_inputs : s.zeroCells.inputs = s.inputs :=
  (State.foldl_zero_keeps (List.range 256) s).2.2.2

/-- A power-on reset is a reset of the zeroed machine; rewrite with it rather than unfold the zeroing. -/
theorem State.powerOnReset_eq : s.powerOnReset = (s.zeroCells.setW 0).softReset := rfl

@[simp] theorem State.powerOnReset_prog : s.powerOnReset.prog = s.prog := by
  have h : ∀ t : State, (t.setW 0).softReset.prog = t.prog := fun _ => rfl
  exact (h s.zeroCells).trans s.zeroCells_prog

@[simp] theorem State.powerOnReset_inputs : s.powerOnReset.inputs = s.inputs := by
  have h : ∀ t : State, (t.setW 0).softReset.inputs = t.inputs := fun _ => rfl
  exact (h s.zeroCells).trans s.zeroCells_inputs

/-! ## Watchdog and prescaler -/

/-- The watchdog counts below its limit. -/
theorem State.wdtIncrement_count (h : s.wdt + 1 ≠ wdtLimit) : s.wdtIncrement = { s with wdt := s.wdt + 1 } := by
  simp only [State.wdtIncrement, h, if_false]

/-- The watchdog reset. -/
theorem State.wdtIncrement_reset (h : s.wdt + 1 = wdtLimit) :
    s.wdtIncrement = (({ s with wdt := s.wdt + 1 } : State).softReset.setCellBit statusAddr toBit
      false).setCellBit statusAddr pdBit true := by
  simp only [State.wdtIncrement, h, if_true]

theorem State.wf_wdtIncrement (h : Memory.wf s.cells = true) : Memory.wf s.wdtIncrement.cells = true := by
  by_cases hw : s.wdt + 1 = wdtLimit
  · rw [s.wdtIncrement_reset hw]
    exact State.wf_setCellBit _ _ _
      (State.wf_setCellBit _ _ _ (State.wf_softReset _ h) (by decide) (by decide)) (by decide) (by decide)
  · rw [s.wdtIncrement_count hw]
    exact h

/-- The prescaler counts below its threshold. -/
theorem State.prescalerTick_count (h : s.pre.toNat + 1 < s.prescalerThreshold) :
    s.prescalerTick = { s with pre := s.pre + 1 } := by
  simp only [State.prescalerTick, Nat.not_le.mpr h, if_false]

/-- At its threshold the prescaler is cleared and its consumer is ticked once. -/
theorem State.prescalerTick_forward (h : s.prescalerThreshold ≤ s.pre.toNat + 1) :
    s.prescalerTick = if s.cellBit optionAddr psaBit then ({ s with pre := 0 } : State).wdtIncrement
      else ({ s with pre := 0 } : State).tmr0Increment := by
  simp only [State.prescalerTick, h, if_true]

theorem State.wf_prescalerTick (h : Memory.wf s.cells = true) : Memory.wf s.prescalerTick.cells = true := by
  rcases Nat.lt_or_ge (s.pre.toNat + 1) s.prescalerThreshold with hc | hc
  · rw [s.prescalerTick_count hc]
    exact h
  · rw [s.prescalerTick_forward hc]
    split
    · exact State.wf_wdtIncrement _ h
    · exact State.wf_tmr0Increment _ h

end Sys2Proof.Machine
end

