-- ==== Sys2Proof/Laws/Effects.lean ====
section
/-! SUPPORT. The shared operations in the terms the claims are stated in: the flag writes, the return
stack, the taking of an interrupt. -/

namespace Sys2Proof.Machine

variable (s : State)

theorem SameStack.refl : SameStack s s := ⟨rfl, fun _ => rfl⟩

theorem SameHidden.refl : SameHidden s s := ⟨rfl, rfl, rfl, rfl⟩

/-! ## Flag writes -/

theorem sameButBits_setCellBit (p : Byte) (j : Nat) (v : Bool) :
    SameButBits p s (s.setCellBit p j v) [(j, v)] := by
  refine ⟨rfl, rfl, rfl, SameStack.refl s, SameHidden.refl s, fun q hq => by simp [hq], fun i hi => ?_⟩
  rw [State.cellBit_setCellBit _ _ _ _ _ _ hi]
  by_cases h : i = j
  · simp [h]
  · simp [List.lookup, beq_false_of_ne h, h]

theorem sameButBits_setZ (z : Bool) : SameButBits statusAddr s (s.setZ z) [(zBit, z)] :=
  sameButBits_setCellBit s statusAddr zBit z

theorem sameButBits_setC (c : Bool) : SameButBits statusAddr s (s.setC c) [(cBit, c)] :=
  sameButBits_setCellBit s statusAddr cBit c

theorem sameButBits_setCDCZ (c dc z : Bool) :
    SameButBits statusAddr s (s.setCDCZ c dc z) [(cBit, c), (dcBit, dc), (zBit, z)] := by
  refine ⟨rfl, rfl, rfl, SameStack.refl s, SameHidden.refl s, fun q hq => ?_, fun i hi => ?_⟩
  · simp [State.setCDCZ, hq]
  · simp only [State.setCDCZ, State.cellBit_setCellBit _ _ _ _ _ _ hi, true_and]
    rcases Nat.lt_or_ge i 3 with h | h
    · interval_cases i <;> rfl
    · have h0 : i ≠ cBit := by unfold cBit; omega
      have h1 : i ≠ dcBit := by unfold dcBit; omega
      have h2 : i ≠ zBit := by unfold zBit; omega
      simp [List.lookup, beq_false_of_ne h0, beq_false_of_ne h1, beq_false_of_ne h2, h0, h1, h2]

/-! ## The return stack -/

/-- The slots after a push. -/
theorem State.peek_push (v : PcWord) (i : Fin 8) :
    (s.push v).peek i = if i.val = s.sp.toNat then v else s.peek i := by
  unfold State.peek
  show (s.stk.set s.sp.toNat v s.sp.isLt)[i.val] = _
  rw [Vector.getElem_set]
  simp only [eq_comm]
  rfl

theorem pushed_push (v : PcWord) : Pushed s (s.push v) v := by
  refine ⟨?_, s.peek_push v⟩
  show (s.sp + 1).toNat = _
  simp [BitVec.toNat_add]

theorem popped_popState : Popped s s.popState s.popValue := by
  have h : (s.sp - 1).toNat = (s.sp.toNat + 7) % 8 := by
    have := s.sp.isLt
    rw [BitVec.toNat_sub, show (1 : BitVec 3).toNat = 1 from rfl]
    omega
  refine ⟨h, fun _ => rfl, fun i hi => ?_⟩
  have hi' : i.val = (s.sp - 1).toNat := hi
  have hf : i = ⟨(s.sp - 1).toNat, (s.sp - 1).isLt⟩ := Fin.ext hi'
  subst hf
  rfl

/-- What a pop returns right after a push. -/
theorem State.popValue_push (v : PcWord) : (s.push v).popValue = v := by
  have h : s.sp + 1 - 1 = s.sp := by simp
  unfold State.popValue
  simp only [State.push_sp, State.push_stk, h]
  simp

/-! ## The taking of an interrupt -/

theorem interruptTaken_takeInterrupt (flag : Nat) : InterruptTaken s (s.takeInterrupt flag) flag := by
  refine ⟨rfl, rfl, rfl, ?_, SameHidden.refl s, fun q hq => by simp [hq], fun j hj => ?_⟩
  · have h := pushed_push ((s.setCellBit intconAddr flag true).setCellBit intconAddr gieBit false) s.pc
    exact ⟨h.1, h.2⟩
  · rw [State.intcon_takeInterrupt _ _ _ hj]

/-! ## Instructions with a destination cell -/

/-- STATUS with the listed bits written, one after the other. -/
def State.writeBits (s : State) (bits : List (Nat × Bool)) : State :=
  bits.foldl (fun t b => t.setCellBit statusAddr b.1 b.2) s

/-- Writing STATUS bits changes no other cell. -/
theorem State.cell_writeBits (bits : List (Nat × Bool)) {q : Byte} (h : q ≠ statusAddr) :
    (s.writeBits bits).cell q = s.cell q := by
  unfold State.writeBits
  induction bits generalizing s with
  | nil => rfl
  | cons b bits ih => rw [List.foldl_cons, ih, State.cell_setCellBit_ne _ _ _ h]

/-- Writing STATUS bits changes nothing outside the register file. -/
theorem State.writeBits_keeps (bits : List (Nat × Bool)) :
    let t := s.writeBits bits
    t.w = s.w ∧ t.pc = s.pc ∧ t.cyc = s.cyc ∧ t.stk = s.stk ∧ t.sp = s.sp ∧ SameHidden s t := by
  unfold State.writeBits
  induction bits generalizing s with
  | nil => exact ⟨rfl, rfl, rfl, rfl, rfl, SameHidden.refl s⟩
  | cons b bits ih => exact ih (s.setCellBit statusAddr b.1 b.2)

/-- Everything an instruction with a destination cell does: its result is stored, then its flags are written,
then phases 5 and 6 follow. -/
theorem exec_of_destCell {i : Instr} {s : State} {p : Byte} (h : destCell i s = some p) :
    exec i s = .next (((s.cellWrite p (resultOf i s)).writeBits (flagsOf i s)).retire (skips i s)
      (skipCycles (skips i s))) := by
  cases i with
  | goto | call | ret | retlw | retfie | nop | clrwdt | sleep | clrw | btfsc | btfss | addlw | andlw | iorlw
  | movlw | sublw | xorlw | undecodable => cases h
  | clrf | movwf | bcf | bsf => cases h; rfl
  | andwf d | iorwf d | movf d | xorwf d | swapf d => cases d <;> cases h; rfl
  | addwf d f =>
    cases d <;> cases h
    show finishCDCZ .f f (aluAdd s.w (s.readFile f).toNat) s = _
    rw [aluAdd_eq]
    rfl
  | subwf d f =>
    cases d <;> cases h
    show finishCDCZ .f f (aluSub (s.readFile f) s.w) s = _
    rw [aluSub_eq]
    rfl
  | comf d f =>
    cases d <;> cases h
    show finishZ .f f (aluCom (s.readFile f)) s = _
    rw [aluCom_eq]
    rfl
  | decf d f =>
    cases d <;> cases h
    show finishZ .f f (aluDec (s.readFile f)) s = _
    rw [aluDec_eq]
    rfl
  | incf d f =>
    cases d <;> cases h
    show finishZ .f f (aluInc (s.readFile f)) s = _
    rw [aluInc_eq]
    rfl
  | decfsz d f =>
    cases d <;> cases h
    show finishSkip (aluDec (s.readFile f) == 0) (s.writeDest .f f (aluDec (s.readFile f))) = _
    rw [aluDec_eq]
    rfl
  | incfsz d f =>
    cases d <;> cases h
    show finishSkip (aluInc (s.readFile f) == 0) (s.writeDest .f f (aluInc (s.readFile f))) = _
    rw [aluInc_eq]
    rfl
  | rlf d f =>
    cases d <;> cases h
    show finishC .f f (aluRlc (s.readFile f) s.carry) s = _
    rw [aluRlc_eq]
    rfl
  | rrf d f =>
    cases d <;> cases h
    show finishC .f f (aluRrc (s.readFile f) s.carry) s = _
    rw [aluRrc_eq]
    rfl

/-! ## The invariant: every shared operation keeps it -/

theorem State.Inv.setCellBit {s : State} (h : s.Inv) {p : Byte} (j : Nat) (b : Bool) (h2 : p ≠ pclAddr)
    (hA : p ≠ pclathAddr) : (s.setCellBit p j b).Inv :=
  ⟨s.wf_setCellBit j b h.1 h2 hA, h.2⟩

theorem State.Inv.cellWrite {s : State} (h : s.Inv) (p v : Byte) : (s.cellWrite p v).Inv :=
  ⟨s.wf_cellWrite p v h.1, by simpa using h.2⟩

theorem State.Inv.writeDest {s : State} (h : s.Inv) (d : Dest) (f : BitVec 7) (v : Byte) :
    (s.writeDest d f v).Inv := by
  cases d
  · exact h
  · exact h.cellWrite _ v

theorem State.Inv.setZ {s : State} (h : s.Inv) (z : Bool) : (s.setZ z).Inv :=
  ⟨s.wf_setZ z h.1, h.2⟩

theorem State.Inv.setC {s : State} (h : s.Inv) (c : Bool) : (s.setC c).Inv :=
  ⟨s.wf_setC c h.1, h.2⟩

theorem State.Inv.setCDCZ {s : State} (h : s.Inv) (c dc z : Bool) : (s.setCDCZ c dc z).Inv :=
  ⟨s.wf_setCDCZ c dc z h.1, h.2⟩

theorem State.Inv.takeInterrupt {s : State} (h : s.Inv) (flag : Nat) : (s.takeInterrupt flag).Inv :=
  ⟨s.wf_takeInterrupt flag h.1, h.2⟩

theorem State.Inv.tmr0Increment {s : State} (h : s.Inv) : s.tmr0Increment.Inv := by
  refine ⟨s.wf_tmr0Increment h.1, ?_, ?_⟩
  · rw [State.tmr0Increment_prog]
    exact h.2.1
  · rw [State.tmr0Increment_wdt]
    exact h.2.2

theorem State.Inv.retire {s : State} (h : s.Inv) (skip : Bool) (cycles : Nat) :
    (s.retire skip cycles).Inv := by
  refine ⟨s.wf_retire skip cycles h.1, ?_, ?_⟩
  · rw [State.retire_prog]
    exact h.2.1
  · rw [State.retire_wdt]
    exact h.2.2

theorem State.Inv.wdtIncrement {s : State} (h : s.Inv) : s.wdtIncrement.Inv := by
  refine ⟨s.wf_wdtIncrement h.1, ?_⟩
  by_cases hw : s.wdt + 1 = wdtLimit
  · rw [s.wdtIncrement_reset hw]
    exact ⟨h.2.1, show (0 : Byte).toNat < 128 by decide⟩
  · rw [s.wdtIncrement_count hw]
    refine ⟨h.2.1, ?_⟩
    have h3 := h.2.2
    have hne : s.wdt.toNat + 1 ≠ 128 := fun hc =>
      hw (BitVec.eq_of_toNat_eq (by simp [BitVec.toNat_add, hc]))
    show (s.wdt + 1).toNat < 128
    rw [BitVec.toNat_add, show (1 : Byte).toNat = 1 from rfl]
    omega

theorem State.Inv.prescalerTick {s : State} (h : s.Inv) : s.prescalerTick.Inv := by
  rcases Nat.lt_or_ge (s.pre.toNat + 1) s.prescalerThreshold with hc | hc
  · rw [s.prescalerTick_count hc]
    exact h
  · rw [s.prescalerTick_forward hc]
    have h0 : ({ s with pre := 0 } : State).Inv := h
    split
    · exact h0.wdtIncrement
    · exact h0.tmr0Increment

theorem State.Inv.softReset {s : State} (h : s.Inv) : s.softReset.Inv :=
  ⟨s.wf_softReset h.1, h.2.1, show (0 : Byte).toNat < 128 by decide⟩

theorem State.Inv.powerOnReset {s : State} (h : s.Inv) : s.powerOnReset.Inv := by
  refine ⟨s.wf_powerOnReset h.1, ?_, show (0 : Byte).toNat < 128 by decide⟩
  rw [State.powerOnReset_prog]
  exact h.2.1

end Sys2Proof.Machine
end

