-- ==== Sys2Proof/Laws/PerInstr.lean ====
section
/-! SUPPORT. The family `EncodesRow`: the word of every well-formed instruction selects its row of
spec/opcode_table.json, whose mask and match are written out here from the table. -/

namespace Sys2Proof.Laws

/-- The row's mask (spec/opcode_table.json). -/
def rowMask : Instr → ProgWord
  | .goto _ => 0x3800
  | .call _ => 0x3800
  | .ret => 0x3FFF
  | .retlw _ _ => 0x3C00
  | .retfie => 0x3FFF
  | .nop _ => 0x3F80
  | .clrwdt => 0x3FFF
  | .sleep => 0x3FFF
  | .addwf _ _ => 0x3F00
  | .andwf _ _ => 0x3F00
  | .clrf _ => 0x3F80
  | .clrw _ => 0x3F80
  | .comf _ _ => 0x3F00
  | .decf _ _ => 0x3F00
  | .decfsz _ _ => 0x3F00
  | .incf _ _ => 0x3F00
  | .incfsz _ _ => 0x3F00
  | .iorwf _ _ => 0x3F00
  | .movf _ _ => 0x3F00
  | .movwf _ => 0x3F80
  | .rlf _ _ => 0x3F00
  | .rrf _ _ => 0x3F00
  | .subwf _ _ => 0x3F00
  | .swapf _ _ => 0x3F00
  | .xorwf _ _ => 0x3F00
  | .bcf _ _ => 0x3C00
  | .bsf _ _ => 0x3C00
  | .btfsc _ _ => 0x3C00
  | .btfss _ _ => 0x3C00
  | .addlw _ _ => 0x3E00
  | .andlw _ => 0x3F00
  | .iorlw _ => 0x3F00
  | .movlw _ _ => 0x3C00
  | .sublw _ _ => 0x3E00
  | .xorlw _ => 0x3F00
  | .undecodable _ => 0x3F00

/-- The row's match (spec/opcode_table.json). -/
def rowMatch : Instr → ProgWord
  | .goto _ => 0x2800
  | .call _ => 0x2000
  | .ret => 0x0008
  | .retlw _ _ => 0x3400
  | .retfie => 0x0009
  | .nop _ => 0x0000
  | .clrwdt => 0x0064
  | .sleep => 0x0063
  | .addwf _ _ => 0x0700
  | .andwf _ _ => 0x0500
  | .clrf _ => 0x0180
  | .clrw _ => 0x0100
  | .comf _ _ => 0x0900
  | .decf _ _ => 0x0300
  | .decfsz _ _ => 0x0B00
  | .incf _ _ => 0x0A00
  | .incfsz _ _ => 0x0F00
  | .iorwf _ _ => 0x0400
  | .movf _ _ => 0x0800
  | .movwf _ => 0x0080
  | .rlf _ _ => 0x0D00
  | .rrf _ _ => 0x0C00
  | .subwf _ _ => 0x0200
  | .swapf _ _ => 0x0E00
  | .xorwf _ _ => 0x0600
  | .bcf _ _ => 0x1000
  | .bsf _ _ => 0x1400
  | .btfsc _ _ => 0x1800
  | .btfss _ _ => 0x1C00
  | .addlw _ _ => 0x3E00
  | .andlw _ => 0x3900
  | .iorlw _ => 0x3800
  | .movlw _ _ => 0x3000
  | .sublw _ _ => 0x3C00
  | .xorlw _ => 0x3A00
  | .undecodable _ => 0x3B00

/-- A word with the row's fixed bits selects the row: the mask covers the opcode bits and no field bit. -/
theorem selects_of_prefix {n k : Nat} {p m r : BitVec n} (x : BitVec k) (h : p &&& m = r) :
    (p ++ x) &&& (m ++ (0 : BitVec k)) = r ++ (0 : BitVec k) := by
  rw [BitVec.and_append, h]
  simp

/-- What the family says of an instruction. -/
def EncodesRow.Statement (i : Instr) : Prop :=
  i.wf = true → encode i &&& rowMask i = rowMatch i

theorem EncodesRow.goto (kbig : BitVec 11) : Statement (.goto kbig) :=
  fun _ => selects_of_prefix (p := 0b101#3) (m := 0b111#3) (r := 0b101#3) kbig rfl

theorem EncodesRow.call (kbig : BitVec 11) : Statement (.call kbig) :=
  fun _ => selects_of_prefix (p := 0b100#3) (m := 0b111#3) (r := 0b100#3) kbig rfl

theorem EncodesRow.ret : Statement (.ret) := fun _ => rfl

theorem EncodesRow.retlw (x : BitVec 2) (k : BitVec 8) : Statement (.retlw x k) :=
  fun _ => selects_of_prefix (p := (0b1101#4 ++ x)) (m := (0b1111#4 ++ 0#2)) (r := (0b1101#4 ++ 0#2)) k
    (selects_of_prefix x rfl)

theorem EncodesRow.retfie : Statement (.retfie) := fun _ => rfl

theorem EncodesRow.nop (x : BitVec 7) : Statement (.nop x) :=
  fun _ => selects_of_prefix (p := 0b0000000#7) (m := 0b1111111#7) (r := 0b0000000#7) x rfl

theorem EncodesRow.clrwdt : Statement (.clrwdt) := fun _ => rfl

theorem EncodesRow.sleep : Statement (.sleep) := fun _ => rfl

theorem EncodesRow.addwf (d : Dest) (f : BitVec 7) : Statement (.addwf d f) :=
  fun _ => selects_of_prefix (p := (0b000111#6 ++ d.bit)) (m := 0b1111110#7) (r := 0b0001110#7) f (by cases d <;> rfl)

theorem EncodesRow.andwf (d : Dest) (f : BitVec 7) : Statement (.andwf d f) :=
  fun _ => selects_of_prefix (p := (0b000101#6 ++ d.bit)) (m := 0b1111110#7) (r := 0b0001010#7) f (by cases d <;> rfl)

theorem EncodesRow.clrf (f : BitVec 7) : Statement (.clrf f) :=
  fun _ => selects_of_prefix (p := 0b0000011#7) (m := 0b1111111#7) (r := 0b0000011#7) f rfl

theorem EncodesRow.clrw (x : BitVec 7) : Statement (.clrw x) :=
  fun _ => selects_of_prefix (p := 0b0000010#7) (m := 0b1111111#7) (r := 0b0000010#7) x rfl

theorem EncodesRow.comf (d : Dest) (f : BitVec 7) : Statement (.comf d f) :=
  fun _ => selects_of_prefix (p := (0b001001#6 ++ d.bit)) (m := 0b1111110#7) (r := 0b0010010#7) f (by cases d <;> rfl)

theorem EncodesRow.decf (d : Dest) (f : BitVec 7) : Statement (.decf d f) :=
  fun _ => selects_of_prefix (p := (0b000011#6 ++ d.bit)) (m := 0b1111110#7) (r := 0b0000110#7) f (by cases d <;> rfl)

theorem EncodesRow.decfsz (d : Dest) (f : BitVec 7) : Statement (.decfsz d f) :=
  fun _ => selects_of_prefix (p := (0b001011#6 ++ d.bit)) (m := 0b1111110#7) (r := 0b0010110#7) f (by cases d <;> rfl)

theorem EncodesRow.incf (d : Dest) (f : BitVec 7) : Statement (.incf d f) :=
  fun _ => selects_of_prefix (p := (0b001010#6 ++ d.bit)) (m := 0b1111110#7) (r := 0b0010100#7) f (by cases d <;> rfl)

theorem EncodesRow.incfsz (d : Dest) (f : BitVec 7) : Statement (.incfsz d f) :=
  fun _ => selects_of_prefix (p := (0b001111#6 ++ d.bit)) (m := 0b1111110#7) (r := 0b0011110#7) f (by cases d <;> rfl)

theorem EncodesRow.iorwf (d : Dest) (f : BitVec 7) : Statement (.iorwf d f) :=
  fun _ => selects_of_prefix (p := (0b000100#6 ++ d.bit)) (m := 0b1111110#7) (r := 0b0001000#7) f (by cases d <;> rfl)

theorem EncodesRow.movf (d : Dest) (f : BitVec 7) : Statement (.movf d f) :=
  fun _ => selects_of_prefix (p := (0b001000#6 ++ d.bit)) (m := 0b1111110#7) (r := 0b0010000#7) f (by cases d <;> rfl)

theorem EncodesRow.movwf (f : BitVec 7) : Statement (.movwf f) :=
  fun _ => selects_of_prefix (p := 0b0000001#7) (m := 0b1111111#7) (r := 0b0000001#7) f rfl

theorem EncodesRow.rlf (d : Dest) (f : BitVec 7) : Statement (.rlf d f) :=
  fun _ => selects_of_prefix (p := (0b001101#6 ++ d.bit)) (m := 0b1111110#7) (r := 0b0011010#7) f (by cases d <;> rfl)

theorem EncodesRow.rrf (d : Dest) (f : BitVec 7) : Statement (.rrf d f) :=
  fun _ => selects_of_prefix (p := (0b001100#6 ++ d.bit)) (m := 0b1111110#7) (r := 0b0011000#7) f (by cases d <;> rfl)

theorem EncodesRow.subwf (d : Dest) (f : BitVec 7) : Statement (.subwf d f) :=
  fun _ => selects_of_prefix (p := (0b000010#6 ++ d.bit)) (m := 0b1111110#7) (r := 0b0000100#7) f (by cases d <;> rfl)

theorem EncodesRow.swapf (d : Dest) (f : BitVec 7) : Statement (.swapf d f) :=
  fun _ => selects_of_prefix (p := (0b001110#6 ++ d.bit)) (m := 0b1111110#7) (r := 0b0011100#7) f (by cases d <;> rfl)

theorem EncodesRow.xorwf (d : Dest) (f : BitVec 7) : Statement (.xorwf d f) :=
  fun _ => selects_of_prefix (p := (0b000110#6 ++ d.bit)) (m := 0b1111110#7) (r := 0b0001100#7) f (by cases d <;> rfl)

theorem EncodesRow.bcf (b : BitVec 3) (f : BitVec 7) : Statement (.bcf b f) :=
  fun _ => selects_of_prefix (p := (0b0100#4 ++ b)) (m := (0b1111#4 ++ 0#3)) (r := (0b0100#4 ++ 0#3)) f
    (selects_of_prefix b rfl)

theorem EncodesRow.bsf (b : BitVec 3) (f : BitVec 7) : Statement (.bsf b f) :=
  fun _ => selects_of_prefix (p := (0b0101#4 ++ b)) (m := (0b1111#4 ++ 0#3)) (r := (0b0101#4 ++ 0#3)) f
    (selects_of_prefix b rfl)

theorem EncodesRow.btfsc (b : BitVec 3) (f : BitVec 7) : Statement (.btfsc b f) :=
  fun _ => selects_of_prefix (p := (0b0110#4 ++ b)) (m := (0b1111#4 ++ 0#3)) (r := (0b0110#4 ++ 0#3)) f
    (selects_of_prefix b rfl)

theorem EncodesRow.btfss (b : BitVec 3) (f : BitVec 7) : Statement (.btfss b f) :=
  fun _ => selects_of_prefix (p := (0b0111#4 ++ b)) (m := (0b1111#4 ++ 0#3)) (r := (0b0111#4 ++ 0#3)) f
    (selects_of_prefix b rfl)

theorem EncodesRow.addlw (x : BitVec 1) (k : BitVec 8) : Statement (.addlw x k) :=
  fun _ => selects_of_prefix (p := (0b11111#5 ++ x)) (m := (0b11111#5 ++ 0#1)) (r := (0b11111#5 ++ 0#1)) k
    (selects_of_prefix x rfl)

theorem EncodesRow.andlw (k : BitVec 8) : Statement (.andlw k) :=
  fun _ => selects_of_prefix (p := 0b111001#6) (m := 0b111111#6) (r := 0b111001#6) k rfl

theorem EncodesRow.iorlw (k : BitVec 8) : Statement (.iorlw k) :=
  fun _ => selects_of_prefix (p := 0b111000#6) (m := 0b111111#6) (r := 0b111000#6) k rfl

theorem EncodesRow.movlw (x : BitVec 2) (k : BitVec 8) : Statement (.movlw x k) :=
  fun _ => selects_of_prefix (p := (0b1100#4 ++ x)) (m := (0b1111#4 ++ 0#2)) (r := (0b1100#4 ++ 0#2)) k
    (selects_of_prefix x rfl)

theorem EncodesRow.sublw (x : BitVec 1) (k : BitVec 8) : Statement (.sublw x k) :=
  fun _ => selects_of_prefix (p := (0b11110#5 ++ x)) (m := (0b11111#5 ++ 0#1)) (r := (0b11110#5 ++ 0#1)) k
    (selects_of_prefix x rfl)

theorem EncodesRow.xorlw (k : BitVec 8) : Statement (.xorlw k) :=
  fun _ => selects_of_prefix (p := 0b111010#6) (m := 0b111111#6) (r := 0b111010#6) k rfl

theorem EncodesRow.undecodable (x : BitVec 8) : Statement (.undecodable x) :=
  fun _ => selects_of_prefix (p := 0b111011#6) (m := 0b111111#6) (r := 0b111011#6) x rfl

end Sys2Proof.Laws
end

