-- ==== Sys2Proof/Tests/Slice0.lean ====
section
/-! SUPPORT. Tests from the spec's own vectors (95_test_vectors.md, whose ids the comments name) and
encodings (30_encoding.md R96), and for every obligation with hypotheses a witness that meets them. -/

namespace Sys2Proof.Tests

open Sys2Proof.Machine

/-! ## Helpers -/

/-- `S0` of 95_test_vectors.md with the listed cells replaced. -/
def withCells (cs : List (Byte × Byte)) : State :=
  cs.foldl (fun s e => s.setCell e.1 e.2) State.reset

/-- `S0` with W, PC and the listed cells replaced. -/
def start (w : Byte) (pc : PcWord) (cs : List (Byte × Byte)) : State := { withCells cs with w := w, pc := pc }

/-- One `Step` with the word at PC, from `s`. -/
def run (word : Nat) (s : State) : Host.Outcome State Fault Refusal := step (s.withFetchWord 14 word)

/-- A next state with this W, STATUS, PC and CYC, of which `p` holds. -/
def gives (o : Host.Outcome State Fault Refusal) (w status : Byte) (pc : PcWord) (cyc : Nat)
    (p : State → Bool) : Bool :=
  match o with
  | .next t => t.w == w && t.cell statusAddr == status && t.pc == pc && t.cyc == cyc && p t
  | .fault _ => false
  | .refused _ => false

/-- Cell `a` holds `v`. -/
def holds (a v : Byte) (t : State) : Bool := t.cell a == v

/-- INTCON, TMR0, the first stack slot and SP. -/
def interrupted (intcon tmr0 : Byte) (slot : PcWord) (sp : BitVec 3) (t : State) : Bool :=
  t.cell intconAddr == intcon && t.cell tmr0Addr == tmr0 && t.peek 0 == slot && t.sp == sp

/-- The next state is `u`. -/
def isNext (o : Host.Outcome State Fault Refusal) (u : State) : Bool :=
  match o with
  | .next t => decide (t = u)
  | .fault _ => false
  | .refused _ => false

/-- Nothing more is asked. -/
def any (_ : State) : Bool := true

/-! ## Well-formedness: the four fixed words are refused as NOPs (30_encoding.md R100) -/

theorem test_wf_refuses_nop_08 : (Instr.nop 0x08).wf = false := by decide

theorem test_wf_refuses_nop_09 : (Instr.nop 0x09).wf = false := by decide

theorem test_wf_refuses_nop_63 : (Instr.nop 0x63).wf = false := by decide

theorem test_wf_refuses_nop_64 : (Instr.nop 0x64).wf = false := by decide

theorem test_wf_accepts_nop_62 : (Instr.nop 0x62).wf = true := by decide

/-! ## Decoding: words written out from the patterns of 30_encoding.md R96 -/

theorem test_decode_goto : decode 0b10100000010000 = .ok (.goto 0x010) := by decide

theorem test_decode_call : decode 0b10000000000101 = .ok (.call 0x005) := by decide

theorem test_decode_ret : decode 0b00000000001000 = .ok (.ret) := by decide

theorem test_decode_retlw : decode 0b11011000101010 = .ok (.retlw 2 0x2A) := by decide

theorem test_decode_retfie : decode 0b00000000001001 = .ok (.retfie) := by decide

theorem test_decode_nop : decode 0b00000001100010 = .ok (.nop 0x62) := by decide

theorem test_decode_clrwdt : decode 0b00000001100100 = .ok (.clrwdt) := by decide

theorem test_decode_sleep : decode 0b00000001100011 = .ok (.sleep) := by decide

theorem test_decode_addwf : decode 0b00011110001100 = .ok (.addwf .f 0x0C) := by decide

theorem test_decode_andwf : decode 0b00010100001100 = .ok (.andwf .w 0x0C) := by decide

theorem test_decode_clrf : decode 0b00000111111111 = .ok (.clrf 0x7F) := by decide

theorem test_decode_clrw : decode 0b00000101111111 = .ok (.clrw 0x7F) := by decide

theorem test_decode_comf : decode 0b00100110001100 = .ok (.comf .f 0x0C) := by decide

theorem test_decode_decf : decode 0b00001100001100 = .ok (.decf .w 0x0C) := by decide

theorem test_decode_decfsz : decode 0b00101110001100 = .ok (.decfsz .f 0x0C) := by decide

theorem test_decode_incf : decode 0b00101010000000 = .ok (.incf .f 0x00) := by decide

theorem test_decode_incfsz : decode 0b00111101000000 = .ok (.incfsz .w 0x40) := by decide

theorem test_decode_iorwf : decode 0b00010010001100 = .ok (.iorwf .f 0x0C) := by decide

theorem test_decode_movf : decode 0b00100000001100 = .ok (.movf .w 0x0C) := by decide

theorem test_decode_movwf : decode 0b00000010001100 = .ok (.movwf 0x0C) := by decide

theorem test_decode_rlf : decode 0b00110110001100 = .ok (.rlf .f 0x0C) := by decide

theorem test_decode_rrf : decode 0b00110000001100 = .ok (.rrf .w 0x0C) := by decide

theorem test_decode_subwf : decode 0b00001010001100 = .ok (.subwf .f 0x0C) := by decide

theorem test_decode_swapf : decode 0b00111000001100 = .ok (.swapf .w 0x0C) := by decide

theorem test_decode_xorwf : decode 0b00011010001100 = .ok (.xorwf .f 0x0C) := by decide

theorem test_decode_bcf : decode 0b01000100001011 = .ok (.bcf 2 0x0B) := by decide

theorem test_decode_bsf : decode 0b01011010000011 = .ok (.bsf 5 0x03) := by decide

theorem test_decode_btfsc : decode 0b01100100000011 = .ok (.btfsc 2 0x03) := by decide

theorem test_decode_btfss : decode 0b01111110001010 = .ok (.btfss 7 0x0A) := by decide

theorem test_decode_addlw : decode 0b11111100000011 = .ok (.addlw 1 0x03) := by decide

theorem test_decode_andlw : decode 0b11100100001111 = .ok (.andlw 0x0F) := by decide

theorem test_decode_iorlw : decode 0b11100010100000 = .ok (.iorlw 0xA0) := by decide

theorem test_decode_movlw : decode 0b11001100000000 = .ok (.movlw 3 0x00) := by decide

theorem test_decode_sublw : decode 0b11110000000101 = .ok (.sublw 0 0x05) := by decide

theorem test_decode_xorlw : decode 0b11101001011010 = .ok (.xorlw 0x5A) := by decide

theorem test_decode_undecodable : decode 0b11101100000000 = .ok (.undecodable 0) := by decide

theorem test_decode_rejects_wide : decode 0x4000 = .error (.notAProgramWord 0x4000) := by decide

theorem test_decode_table_word : decodeTableWord 14 0x3E03 = some (.addlw 0 0x03) := by decide

/-! ## Byte-oriented instructions (95_test_vectors.md 2.2) -/

/-- B-2. -/
theorem test_addwf_w :
    gives (run 0x070C (start 0xFF 0 [(0x0C, 0x01)])) 0x00 0x1F 1 1
      (holds 0x0C 0x01) = true := by decide

/-- B-4. -/
theorem test_addwf_pcl : gives (run 0x0782 (start 0x03 0x010 [])) 0x03 0x18 0x014 1 any = true := by decide

/-- B-5. -/
theorem test_andwf :
    gives (run 0x050C (start 0xF0 0 [(0x0C, 0x3C)])) 0x30 0x18 1 1
      (holds 0x0C 0x3C) = true := by decide

/-- B-6. -/
theorem test_clrf_status : gives (run 0x0183 (start 0 0 [(0x03, 0x38)])) 0 0x04 1 1 any = true := by decide

/-- B-7. -/
theorem test_clrw : gives (run 0x017F (start 0x77 0 [])) 0x00 0x1C 1 1 any = true := by decide

/-- B-8. -/
theorem test_comf_f :
    gives (run 0x098C (start 0 0 [(0x0C, 0x0F)])) 0 0x18 1 1
      (holds 0x0C 0xF0) = true := by decide

/-- B-9. -/
theorem test_comf_w :
    gives (run 0x090C (start 0 0 [(0x0C, 0xFF)])) 0x00 0x1C 1 1
      (holds 0x0C 0xFF) = true := by decide

/-- B-10. -/
theorem test_decf :
    gives (run 0x038C (start 0 0 [(0x0C, 0x00)])) 0 0x18 1 1
      (holds 0x0C 0xFF) = true := by decide

/-- B-11. -/
theorem test_decfsz_skips :
    gives (run 0x0B8C (start 0 4 [(0x0C, 0x01)])) 0 0x18 6 2
      (holds 0x0C 0x00) = true := by decide

/-- B-12. -/
theorem test_decfsz_wraps :
    gives (run 0x0B8C (start 0 4 [(0x0C, 0x00)])) 0 0x18 5 1
      (holds 0x0C 0xFF) = true := by decide

/-- B-14. -/
theorem test_incf :
    gives (run 0x0A8C (start 0 0 [(0x0C, 0xFF)])) 0 0x1C 1 1
      (holds 0x0C 0x00) = true := by decide

/-- B-15. -/
theorem test_incf_indirect_fsr :
    gives (run 0x0A80 (start 0 0 [(0x04, 0x04)])) 0 0x18 1 1
      (holds 0x04 0x05) = true := by decide

/-- B-16. -/
theorem test_incfsz :
    gives (run 0x0F8C (start 0 7 [(0x0C, 0xFF)])) 0 0x18 9 2
      (holds 0x0C 0x00) = true := by decide

/-- B-17. -/
theorem test_iorwf :
    gives (run 0x048C (start 0x81 0 [(0x0C, 0x18)])) 0x81 0x18 1 1
      (holds 0x0C 0x99) = true := by decide

/-- B-19. -/
theorem test_movf_pcl : gives (run 0x0802 (start 0 0x123 [])) 0x23 0x18 0x124 1 any = true := by decide

/-- B-18. -/
theorem test_movf_zero : gives (run 0x080C (start 0x55 0 [])) 0x00 0x1C 1 1 any = true := by decide

/-- B-24. -/
theorem test_movwf_indirect :
    gives (run 0x0080 (start 0x07 0 [(0x04, 0x85)])) 0x07 0x18 1 1
      (fun t => holds 0x85 0x07 t && holds 0x00 0x00 t) = true := by decide

/-- B-23. -/
theorem test_movwf_pclath :
    gives (run 0x008A (start 0xE1 5 [])) 0xE1 0x18 0x106 1
      (fun t => t.cellRead 0x0A == 0x01) = true := by decide

/-- B-31. -/
theorem test_rlf :
    gives (run 0x0D8C (start 0 0 [(0x0C, 0x80), (0x03, 0x19)])) 0 0x19 1 1
      (holds 0x0C 0x01) = true := by decide

/-- B-30. -/
theorem test_rlf_carry_in_clear :
    gives (run 0x0D8C (start 0 0 [(0x0C, 0x80)])) 0 0x19 1 1
      (holds 0x0C 0x00) = true := by decide

/-- B-33. -/
theorem test_rrf :
    gives (run 0x0C0C (start 0 0 [(0x0C, 0x01), (0x03, 0x19)])) 0x80 0x19 1 1
      (holds 0x0C 0x01) = true := by decide

/-- B-32. -/
theorem test_rrf_carry_in_clear :
    gives (run 0x0C8C (start 0 0 [(0x0C, 0x01)])) 0 0x19 1 1
      (holds 0x0C 0x00) = true := by decide

/-- B-35. -/
theorem test_subwf_borrow :
    gives (run 0x028C (start 0x01 0 [(0x0C, 0x00)])) 0x01 0x18 1 1
      (holds 0x0C 0xFF) = true := by decide

/-- B-36. -/
theorem test_subwf_zero_w :
    gives (run 0x020C (start 0x00 0 [(0x0C, 0x34)])) 0x34 0x19 1 1 any = true := by decide

/-- B-38. -/
theorem test_swapf : gives (run 0x0E0C (start 0 0 [(0x0C, 0xA5)])) 0x5A 0x18 1 1 any = true := by decide

/-- B-39. -/
theorem test_xorwf :
    gives (run 0x068C (start 0xFF 0 [(0x0C, 0x0F)])) 0xFF 0x18 1 1
      (holds 0x0C 0xF0) = true := by decide

/-! ## Bit-oriented instructions (2.3) -/

/-- T-1. -/
theorem test_bcf :
    gives (run 0x110B (start 0 0 [(0x0B, 0x24)])) 0 0x18 1 1
      (holds 0x0B 0x20) = true := by decide

/-- T-3. -/
theorem test_bcf_t0cs_ticks :
    gives (run 0x1281 (start 0 0x00B [(0x03, 0x38)])) 0 0x38 0x00C 1
      (fun t => holds 0x81 0xDF t && holds 0x01 0x01 t) = true := by decide

/-- T-2. -/
theorem test_bsf : gives (run 0x1683 (start 0 0 [])) 0 0x38 1 1 any = true := by decide

/-- T-4. -/
theorem test_btfsc_skips : gives (run 0x1903 (start 0 5 [])) 0 0x18 7 2 any = true := by decide

/-- T-5. -/
theorem test_btfsc_stays : gives (run 0x1903 (start 0 5 [(0x03, 0x1C)])) 0 0x1C 6 1 any = true := by decide

/-- T-7. -/
theorem test_btfss_pclath : gives (run 0x1F8A (start 0 5 [])) 0 0x18 6 1 any = true := by decide

/-- T-8. -/
theorem test_btfss_skip_interrupt :
    gives (run 0x1D83 (start 0 0x0FE [(0x81, 0xDF), (0x0B, 0xA0), (0x01, 0xFF)])) 0 0x18 0x004 3
      (interrupted 0x24 0x00 0x100 1) = true := by decide

/-! ## Literal instructions (2.4) -/

/-- L-1. -/
theorem test_addlw : gives (run 0x3E01 (start 0xFF 0 [])) 0x00 0x1F 1 1 any = true := by decide

/-- L-3. -/
theorem test_andlw : gives (run 0x390F (start 0xA5 0 [])) 0x05 0x18 1 1 any = true := by decide

/-- L-4. -/
theorem test_iorlw : gives (run 0x38A0 (start 0x05 0 [])) 0xA5 0x18 1 1 any = true := by decide

/-- L-5. -/
theorem test_movlw : gives (run 0x3300 (start 0x09 0 [])) 0x00 0x18 1 1 any = true := by decide

/-- L-6. -/
theorem test_sublw : gives (run 0x3C05 (start 0x03 0 [])) 0x02 0x1B 1 1 any = true := by decide

/-- L-8. -/
theorem test_sublw_no_digit_carry :
    gives (run 0x3C10 (start 0x10 0 [])) 0x00 0x1D 1 1 any = true := by decide

/-- L-10. -/
theorem test_xorlw : gives (run 0x3A5A (start 0x5A 0 [])) 0x00 0x1C 1 1 any = true := by decide

/-! ## Control transfer (2.5) -/

/-- C-2. -/
theorem test_goto_no_tick :
    gives (run 0x2810 (start 0 0 [(0x81, 0xDF), (0x0B, 0xA0), (0x01, 0xFF)])) 0 0x18 0x010 2
      (interrupted 0xA0 0xFF 0 0) = true := by decide

/-- C-3. -/
theorem test_call :
    gives (run 0x2005 (start 0 0x0FF [])) 0 0x18 0x005 2
      (fun t => t.peek 0 == 0x100 && t.sp == 1) = true := by decide

/-- C-7. -/
theorem test_return :
    gives (run 0x0008 { (start 0 0x005 []).push 0x100 with pc := 0x005 }) 0 0x18 0x100 2
      (fun t => t.peek 0 == 0x100 && t.sp == 0) = true := by decide

/-- C-4. -/
theorem test_return_empty :
    gives (run 0x0008 (start 0 0 [])) 0 0x18 0 2
      (fun t => t.sp == 7) = true := by decide

/-- C-5. -/
theorem test_retlw_empty :
    gives (run 0x342A (start 0 0 [])) 0x2A 0x18 0 2
      (fun t => t.sp == 7) = true := by decide

/-- C-6. -/
theorem test_retfie_empty :
    gives (run 0x0009 (start 0 0 [(0x0B, 0x20)])) 0 0x18 0 2
      (fun t => holds 0x0B 0xA0 t && t.sp == 7) = true := by decide

/-! ## System instructions (2.6) -/

/-- Y-1. -/
theorem test_nop : gives (run 0x0062 (start 0 0 [])) 0 0x18 1 1 any = true := by decide

/-- Y-6. -/
theorem test_nop_timer_without_gie :
    gives (run 0x0000 (start 0 0x00F [(0x81, 0xDF), (0x0B, 0x20), (0x01, 0xFF)])) 0 0x18 0x010 1
      (interrupted 0x20 0x00 0 0) = true := by decide

/-- Y-2. -/
theorem test_sleep : gives (run 0x0063 (start 0 3 [])) 0 0x18 4 2 any = true := by decide

/-- Y-3. -/
theorem test_clrwdt :
    gives (run 0x0064 { start 0 0 [(0x03, 0x00)] with wdt := 100, pre := 5 }) 0 0x18 1 1
      (fun t => t.wdt == 0 && t.pre == 5) = true := by decide

/-- Y-4. -/
theorem test_undecodable : gives (run 0x3B00 (start 0 2 [])) 0 0x18 3 1 any = true := by decide

/-- Y-7. -/
theorem test_fetch_fault : step { State.reset with pc := 0x400 } = .fault (.fetchOutOfRange 0x400) := rfl

/-! ## Events (2.7) -/

/-- E-1. -/
theorem test_rb0_falling :
    gives (deliver (.pinChanged .rb0 .low) ({ start 0 0x020 [(0x0B, 0x90), (0x81, 0xBF)] with cyc := 5 })) 0 0x18 0x004 6
      (interrupted 0x12 0x00 0x020 1) = true := by decide

/-- E-2. -/
theorem test_rb0_other_edge :
    gives (deliver (.pinChanged .rb0 .high) ({ start 0 0x020 [(0x0B, 0x90), (0x81, 0xBF)] with cyc := 5 })) 0 0x18 0x020 5
      (interrupted 0x90 0x00 0 0) = true := by decide

/-- E-4. -/
theorem test_rb0_without_gie :
    gives (deliver (.pinChanged .rb0 .low) (start 0 0x020 [(0x0B, 0x10), (0x81, 0xBF)])) 0 0x18 0x020 0
      (interrupted 0x10 0x00 0 0) = true := by decide

/-- E-6. -/
theorem test_rb_change :
    gives (deliver (.pinChanged .rb5 .high) (start 0 0x031 [(0x0B, 0x88)])) 0 0x18 0x004 1
      (interrupted 0x09 0x00 0x031 1) = true := by decide

/-- E-8. -/
theorem test_ra4_rising :
    gives (deliver (.pinChanged .ra4 .high) (start 0 0 [])) 0 0x18 0 0
      (interrupted 0 0 0 0) = true := by decide

/-- E-8. -/
theorem test_ra4_falling :
    gives (deliver (.pinChanged .ra4 .low) (start 0 0 [])) 0 0x18 0 0
      (interrupted 0 1 0 0) = true := by decide

/-- E-9. -/
theorem test_ra4_rising_selected :
    gives (deliver (.pinChanged .ra4 .high) (start 0 0 [(0x81, 0xEF)])) 0 0x18 0 0
      (interrupted 0 1 0 0) = true := by decide

/-- E-10. -/
theorem test_ra4_prescaled :
    gives (deliver (.pinChanged .ra4 .low) (start 0 0 [(0x81, 0xF0)])) 0 0x18 0 0
      (fun t => t.pre == 1 && holds 0x01 0 t) = true := by decide

/-- E-12, the 256th. -/
theorem test_ra4_threshold :
    gives (deliver (.pinChanged .ra4 .low) ({ start 0 0 [(0x81, 0xF7)] with pre := 255 })) 0 0x18 0 0
      (fun t => t.pre == 0 && holds 0x01 1 t) = true := by decide

/-- E-15. -/
theorem test_ra4_above_threshold :
    gives (deliver (.pinChanged .ra4 .low) ({ start 0 0 [(0x81, 0xF0)] with pre := 200 })) 0 0x18 0 0
      (fun t => t.pre == 0 && holds 0x01 1 t) = true := by decide

/-- E-14. -/
theorem test_ra4_overflow :
    gives (deliver (.pinChanged .ra4 .low) (start 0 0x040 [(0x01, 0xFF), (0x0B, 0xA0)])) 0 0x18 0x004 1
      (interrupted 0x24 0 0x040 1) = true := by decide

/-- 60_exceptions.md R225. -/
theorem test_ra1_ignored :
    gives (deliver (.pinChanged .ra1 .high) (start 0 0x040 [(0x0B, 0xF8)])) 0 0x18 0x040 0
      (interrupted 0xF8 0 0 0) = true := by decide

/-- E-16, the 128th. -/
theorem test_wdt_unprescaled_reset :
    gives (deliver (.wdtTick) ({ start 0 0 [(0x81, 0xF7)] with wdt := 127 })) 0 0x08 0 0
      (fun t => t.wdt == 0 && holds 0x81 0xFF t) = true := by decide

/-- E-17, the 128th. -/
theorem test_wdt_prescaled_reset :
    gives (deliver (.wdtTick) ({ start 0 0 [(0x81, 0xF8)] with wdt := 127 })) 0 0x08 0 0
      (fun t => t.wdt == 0 && holds 0x81 0xFF t) = true := by decide

/-- E-19, the 128th. -/
theorem test_wdt_prescaler_forwards :
    gives (deliver (.wdtTick) ({ start 0 0 [] with pre := 127 })) 0 0x18 0 0
      (fun t => t.pre == 0 && t.wdt == 1) = true := by decide

/-- E-20, the 16384th. -/
theorem test_wdt_reset_keeps :
    gives (deliver (.wdtTick) ({ start 0x5A 0x055 [(0x0C, 0x77), (0x03, 0x3F)] with pre := 127, wdt := 127, cyc := 99 })) 0x5A 0x0F 0 0
      (fun t => holds 0x0C 0x77 t && holds 0x81 0xFF t) = true := by decide

/-- E-22. -/
theorem test_reset :
    gives (deliver (.reset) ({ start 0x5A 0x155 [(0x03, 0xE7), (0x04, 0x44), (0x0B, 0xFF), (0x85, 0x00)] with cyc := 99, pre := 3 })) 0x5A 0x1F 0 0
      (fun t => holds 0x04 0x44 t && holds 0x0B 0 t && holds 0x85 0x1F t && t.pre == 0) = true := by decide

/-- E-23, on three cells: a power-on reset clears memory. -/
theorem test_power_on_reset :
    isNext (deliver .powerOnReset (start 0x5A 0x155 [(0x03, 0xE7), (0x0C, 0x77), (0x81, 0x00)])) State.reset
      = true := by decide +kernel

/-- E-21. -/
theorem test_nine_pushes :
    State.popMany 9 (State.reset.pushAll [1, 2, 3, 4, 5, 6, 7, 8, 9])
      = [9, 8, 7, 6, 5, 4, 3, 2, 9] := by decide

/-! ## ALU (2.1) -/

theorem test_add_wraps : aluAdd 0xFF 0x01 = { value := 0x00, c := true, dc := true, z := true } := by decide

theorem test_sub_zero :
    aluSub 0x34 0x00 = { value := 0x34, c := true, dc := false, z := false } := by decide

theorem test_sub_borrow :
    aluSub 0x00 0x01 = { value := 0xFF, c := false, dc := false, z := false } := by decide

/-! ## The events list, program load, inspection -/

/-- A listed event comes before a `Step` (log entry 1), and is taken off the list. -/
theorem test_listed_event_first :
    step { State.reset with inputs := [.progWrite 3 0x2810] }
      = .next { State.reset with prog := [(3, 0x2810)] } := rfl

theorem test_fetch_word : (State.reset.withFetchWord 14 0x3E03).prog = [(0, 0x3E03)] := by decide

/-- Writing the power-on value lists nothing. -/
theorem test_canonical_write : (State.reset.setCell 0x03 0x18).cells = [] := by decide

theorem test_canonical_order :
    ((State.reset.setCell 0x0C 1).setCell 0x04 2).cells = [(0x04, 2), (0x0C, 1)] := by decide

/-- 60_exceptions.md R236: bank 1 of address 5, with RP0 = 0. -/
theorem test_read_bank : (withCells [(0x85, 0x2A)]).inspectBank 0 0x05 true = 0x2A := by decide

/-! ## Witnesses: for every obligation with hypotheses, operands and a state that meet them -/

theorem witness_EncodeThenDecode : (Instr.nop 0x7F).wf = true ∧ (Instr.retlw 3 0xFF).wf = true := by decide

/-- Each row of `DecoderFollowsOpcodeMap` is selected by a word, here with the ignored bits and the fields at
both ends of their ranges. -/
theorem witness_DecoderFollowsOpcodeMap :
    ((0x2FFF : ProgWord) &&& 0x3800 = 0x2800) ∧ ((0x27FF : ProgWord) &&& 0x3800 = 0x2000)
    ∧ ((0x37FF : ProgWord) &&& 0x3C00 = 0x3400)
    ∧ ((0x007F : ProgWord) &&& 0x3F80 = 0x0000 ∧ (0x007F : ProgWord) ≠ 0x0008 ∧ (0x007F : ProgWord) ≠ 0x0009
      ∧ (0x007F : ProgWord) ≠ 0x0063 ∧ (0x007F : ProgWord) ≠ 0x0064)
    ∧ ((0x07FF : ProgWord) &&& 0x3F00 = 0x0700) ∧ ((0x05FF : ProgWord) &&& 0x3F00 = 0x0500)
    ∧ ((0x01FF : ProgWord) &&& 0x3F80 = 0x0180) ∧ ((0x017F : ProgWord) &&& 0x3F80 = 0x0100)
    ∧ ((0x09FF : ProgWord) &&& 0x3F00 = 0x0900) ∧ ((0x03FF : ProgWord) &&& 0x3F00 = 0x0300)
    ∧ ((0x0BFF : ProgWord) &&& 0x3F00 = 0x0B00) ∧ ((0x0AFF : ProgWord) &&& 0x3F00 = 0x0A00)
    ∧ ((0x0FFF : ProgWord) &&& 0x3F00 = 0x0F00) ∧ ((0x04FF : ProgWord) &&& 0x3F00 = 0x0400)
    ∧ ((0x08FF : ProgWord) &&& 0x3F00 = 0x0800) ∧ ((0x00FF : ProgWord) &&& 0x3F80 = 0x0080)
    ∧ ((0x0DFF : ProgWord) &&& 0x3F00 = 0x0D00) ∧ ((0x0CFF : ProgWord) &&& 0x3F00 = 0x0C00)
    ∧ ((0x02FF : ProgWord) &&& 0x3F00 = 0x0200) ∧ ((0x0EFF : ProgWord) &&& 0x3F00 = 0x0E00)
    ∧ ((0x06FF : ProgWord) &&& 0x3F00 = 0x0600) ∧ ((0x13FF : ProgWord) &&& 0x3C00 = 0x1000)
    ∧ ((0x17FF : ProgWord) &&& 0x3C00 = 0x1400) ∧ ((0x1BFF : ProgWord) &&& 0x3C00 = 0x1800)
    ∧ ((0x1FFF : ProgWord) &&& 0x3C00 = 0x1C00) ∧ ((0x3FFF : ProgWord) &&& 0x3E00 = 0x3E00)
    ∧ ((0x39FF : ProgWord) &&& 0x3F00 = 0x3900) ∧ ((0x38FF : ProgWord) &&& 0x3F00 = 0x3800)
    ∧ ((0x33FF : ProgWord) &&& 0x3C00 = 0x3000) ∧ ((0x3DFF : ProgWord) &&& 0x3E00 = 0x3C00)
    ∧ ((0x3AFF : ProgWord) &&& 0x3F00 = 0x3A00) ∧ ((0x3BFF : ProgWord) &&& 0x3F00 = 0x3B00) := by decide

theorem witness_StepRunsDecodedInstruction :
    State.reset.nextEvent = .step ∧ (Instr.nop 0).wf = true
      ∧ State.reset.progRead State.reset.pc = some (encode (.nop 0)) := by decide

theorem witness_StepRunsDecodedInstruction_event :
    ({ State.reset with inputs := [.wdtTick] } : State).nextEvent ≠ .step := by decide

theorem witness_StepFaultsOnlyOnFetchOutOfRange :
    ({ State.reset with pc := 1024 } : State).nextEvent = .step
      ∧ 1023 < ({ State.reset with pc := 1024 } : State).pc.toNat := by decide

theorem witness_StepFaultsOnlyOnFetchOutOfRange_completes :
    ¬(({ State.reset with pc := 1023 } : State).nextEvent = .step
      ∧ 1023 < ({ State.reset with pc := 1023 } : State).pc.toNat) := by decide

theorem witness_StepKeepsMachineForm : State.reset.Inv ∧ ∃ t, step State.reset = .next t :=
  ⟨⟨by decide, by decide, by decide⟩, _, rfl⟩

theorem witness_NopSleepResults :
    (0x62 : BitVec 7) ≠ 0x08 ∧ (0x62 : BitVec 7) ≠ 0x09 ∧ (0x62 : BitVec 7) ≠ 0x63 ∧ (0x62 : BitVec 7) ≠ 0x64 := by decide

theorem witness_RetireAdvancesAndTicks_counter : State.reset.cellBit optionAddr t0csBit = true := by decide

theorem witness_RetireAdvancesAndTicks_overflow :
    (withCells [(0x81, 0xDF), (0x01, 0xFF), (0x0B, 0xA0)]).cellBit optionAddr t0csBit = false
      ∧ (withCells [(0x81, 0xDF), (0x01, 0xFF), (0x0B, 0xA0)]).cell tmr0Addr = 0xFF
      ∧ Enabled (withCells [(0x81, 0xDF), (0x01, 0xFF), (0x0B, 0xA0)]) t0ieBit := by
  unfold Enabled
  decide

theorem witness_RetireAdvancesAndTicks_count :
    (withCells [(0x81, 0xDF), (0x01, 0xFE), (0x0B, 0xA0)]).cellBit optionAddr t0csBit = false
      ∧ ¬((withCells [(0x81, 0xDF), (0x01, 0xFE), (0x0B, 0xA0)]).cell tmr0Addr = 0xFF
        ∧ Enabled (withCells [(0x81, 0xDF), (0x01, 0xFE), (0x0B, 0xA0)]) t0ieBit) := by
  unfold Enabled
  decide

theorem witness_BranchesNeverTickTimer :
    isBranching .retfie = true ∧ isBranching (.goto 0x7FF) = true := by decide

theorem witness_InstructionCellFrame : (∃ t, exec (.addwf .f 0x0C) State.reset = .next t)
    ∧ (0x0D : Byte) ≠ tmr0Addr ∧ (0x0D : Byte) ≠ statusAddr ∧ (0x0D : Byte) ≠ intconAddr
    ∧ (0x0D : Byte) ≠ pclAddr ∧ (0x0D : Byte) ≠ pclathAddr
    ∧ destCell (.addwf .f 0x0C) State.reset ≠ some 0x0D :=
  ⟨⟨_, rfl⟩, by decide⟩

theorem witness_InstructionStatusFrame : (∃ t, exec (.rlf .f 0x0C) State.reset = .next t)
    ∧ 2 < 8 ∧ destCell (.rlf .f 0x0C) State.reset ≠ some statusAddr ∧ 2 ∉ statusBits (.rlf .f 0x0C) :=
  ⟨⟨_, rfl⟩, by decide⟩

theorem witness_InstructionHiddenFrame : (∃ t, exec (.movwf 0x0C) State.reset = .next t)
    ∧ writesW (.movwf 0x0C) = false :=
  ⟨⟨_, rfl⟩, rfl⟩

theorem witness_InstructionsDoNotReadCounters : ∃ t, exec .clrwdt State.reset = .next t := ⟨_, rfl⟩

theorem witness_WriteDestStoresAndKeepsTheRest_pcl : State.reset.fileCell 0x02 = pclAddr := by decide

theorem witness_WriteDestStoresAndKeepsTheRest_pclath :
    State.reset.fileCell 0x0A = pclathAddr
      ∧ (withCells [(0x04, 0x0A)]).fileCell 0x00 = pclathAddr := by decide

theorem witness_BitWriteReplacesOneBit : (0 : Byte) ≠ State.reset.resolve 0x0A := by decide

theorem witness_BanksDifferOnAliasedSet :
    (0x09 : Byte) ≠ 0 ∧ (0x09 : Byte) ≠ statusAddr ∧ (0x09 : Byte) ≠ pclathAddr
      ∧ (0x02 : Byte) ≠ 0 ∧ (0x02 : Byte) ≠ statusAddr ∧ (0x02 : Byte) ≠ pclathAddr := by decide

theorem witness_ProgramLoadWritesProgramMemory :
    (0 : PcWord).toNat < 1024 ∧ (1023 : PcWord).toNat < 1024 := by decide

theorem witness_NinthPushOverwritesFirst :
    ([1, 2, 3, 4, 5, 6, 7, 8, 9] : List PcWord).length = 9 := by decide

theorem witness_Tmr0IncrementCountsAndInterrupts :
    (withCells [(0x01, 0xFF), (0x0B, 0xA0)]).cell tmr0Addr = 0xFF
      ∧ Enabled (withCells [(0x01, 0xFF), (0x0B, 0xA0)]) t0ieBit := by
  unfold Enabled
  decide

theorem witness_Tmr0IncrementCountsAndInterrupts_count :
    ¬((withCells [(0x01, 0xFF), (0x0B, 0x20)]).cell tmr0Addr = 0xFF
      ∧ Enabled (withCells [(0x01, 0xFF), (0x0B, 0x20)]) t0ieBit) := by
  unfold Enabled
  decide

theorem witness_PrescalerForwardsAtThreshold :
    ({ State.reset with pre := 126 } : State).pre.toNat + 1 < 2 ^ ((State.reset.cell optionAddr).toNat % 8)
      ∧ 2 ^ ((State.reset.cell optionAddr).toNat % 8) ≤ ({ State.reset with pre := 127 } : State).pre.toNat + 1
      ∧ State.reset.cellBit optionAddr psaBit = true := by decide

theorem witness_PrescalerForwardsAtThreshold_timer :
    (withCells [(0x81, 0xF7)]).cellBit optionAddr psaBit = false
      ∧ 254 + 1 < 2 * 2 ^ (((withCells [(0x81, 0xF7)]).cell optionAddr).toNat % 8)
      ∧ 2 * 2 ^ (((withCells [(0x81, 0xF7)]).cell optionAddr).toNat % 8) ≤ 255 + 1 := by decide

theorem witness_WatchdogResetsAtLimit :
    ({ State.reset with wdt := 127 } : State).wdt.toNat = 127
      ∧ ({ State.reset with wdt := 126 } : State).wdt.toNat ≠ 127 := by decide

theorem witness_WatchdogPeriodIs16384Ticks :
    State.reset.cell optionAddr = 0xFF ∧ State.reset.pre = 0 ∧ State.reset.wdt = 0 ∧ 16383 < 16384 := by decide

theorem witness_Ra4EdgeClocksTimer :
    (State.reset.cellBit optionAddr t0csBit = true
        ∧ (State.reset.cellBit optionAddr t0seBit = true ↔ Level.low = .low))
      ∧ State.reset.cellBit optionAddr psaBit = true := by decide

theorem witness_Ra4EdgeClocksTimer_prescaled :
    ((withCells [(0x81, 0xE0)]).cellBit optionAddr t0csBit = true
        ∧ ((withCells [(0x81, 0xE0)]).cellBit optionAddr t0seBit = true ↔ Level.high = .low))
      ∧ (withCells [(0x81, 0xE0)]).cellBit optionAddr psaBit = false := by decide

theorem witness_Ra4EdgeClocksTimer_other_edge :
    ¬(State.reset.cellBit optionAddr t0csBit = true
        ∧ (State.reset.cellBit optionAddr t0seBit = true ↔ Level.high = .low)) := by decide

theorem witness_Rb0EdgeInterrupts :
    (State.reset.cellBit optionAddr intedgBit = true ↔ Level.high = .high)
      ∧ Enabled (withCells [(0x0B, 0x90)]) inteBit := by
  unfold Enabled
  decide

theorem witness_Rb0EdgeInterrupts_other_edge :
    ¬((State.reset.cellBit optionAddr intedgBit = true ↔ Level.low = .high)
      ∧ Enabled State.reset inteBit) := by
  unfold Enabled
  decide

theorem witness_PortChangeInterrupts :
    Pin.rb4 ∈ [Pin.rb4, .rb5, .rb6, .rb7] ∧ Pin.rb7 ∈ [Pin.rb4, .rb5, .rb6, .rb7]
      ∧ Enabled (withCells [(0x0B, 0x88)]) rbieBit ∧ ¬Enabled (withCells [(0x0B, 0x80)]) rbieBit := by
  unfold Enabled
  decide

theorem witness_OtherPinsHaveNoEffect : Pin.rb3 ∉ [Pin.ra4, .rb0, .rb4, .rb5, .rb6, .rb7] := by decide

theorem witness_PinEventsWithoutGieLeaveNoTrace : State.reset.cellBit intconAddr gieBit = false
    ∧ ∃ t, deliver (.pinChanged .ra4 .low) State.reset = .next t :=
  ⟨by decide, _, rfl⟩

theorem witness_RetfieUndoesInterrupt : rbifBit < 7 ∧ intfBit < 7 ∧ t0ifBit < 7 := by decide

theorem witness_SettingGieEntersNoInterrupt :
    destCell (.bsf 7 0x0B) (withCells [(0x0B, 0x3F)]) = some intconAddr
      ∧ (withCells [(0x0B, 0x3F)]).cellBit optionAddr t0csBit = true := by decide

theorem witness_SettingGieEntersNoInterrupt_internal :
    destCell (.movwf 0x00) (withCells [(0x04, 0x0B), (0x81, 0xDF), (0x01, 0xFE)]) = some intconAddr
      ∧ (withCells [(0x04, 0x0B), (0x81, 0xDF), (0x01, 0xFE)]).cell tmr0Addr ≠ 0xFF := by decide

theorem witness_SoftResetSetsAndKeeps :
    (0x0C : Byte) ∉ [statusAddr, optionAddr, trisaAddr, trisbAddr, intconAddr] := by decide

theorem witness_PowerOnResetGivesResetState :
    ({ withCells [(0x0C, 0x77)] with wdt := 127 } : State).Inv := by
  unfold State.Inv
  decide

theorem witness_PclWriteContinuesPlusOne :
    destCell (.decfsz .f 0x02) (start 0 1 []) = some pclAddr ∧ skips (.decfsz .f 0x02) (start 0 1 []) = true
      ∧ destCell (.movwf 0x0A) State.reset = some pclathAddr
      ∧ ¬(State.reset.cellBit optionAddr t0csBit = false ∧ State.reset.cell tmr0Addr = 0xFF
        ∧ Enabled State.reset t0ieBit) := by
  unfold Enabled
  decide

theorem witness_PclWriteContinuesPlusOne_taken :
    destCell (.movwf 0x02) (withCells [(0x81, 0xDF), (0x01, 0xFF), (0x0B, 0xA0)]) = some pclAddr
      ∧ (withCells [(0x81, 0xDF), (0x01, 0xFF), (0x0B, 0xA0)]).cellBit optionAddr t0csBit = false
      ∧ (withCells [(0x81, 0xDF), (0x01, 0xFF), (0x0B, 0xA0)]).cell tmr0Addr = 0xFF
      ∧ Enabled (withCells [(0x81, 0xDF), (0x01, 0xFF), (0x0B, 0xA0)]) t0ieBit := by
  unfold Enabled
  decide

theorem witness_StatusDestinationFlagsLast :
    destCell (.addwf .f 0x03) State.reset = some statusAddr
      ∧ destCell (.rlf .f 0x00) (withCells [(0x04, 0x03)]) = some statusAddr := by decide

theorem witness_BankExplicitInspection :
    (0x05 : Byte) ≠ 0 ∧ (0x05 : Byte) ≠ statusAddr ∧ (0x05 : Byte) ≠ fsrAddr
      ∧ (withCells [(0x03, 0x38)]).cellBit statusAddr rp0Bit = true := by decide

end Sys2Proof.Tests
end

/-! SUPPORT. Every instruction in the phases of spec 40_step_and_alu.md R110: its result is stored, its STATUS
bits are written, it does what it alone does, and phases 5 and 6 follow. `exec_eq` ties these phases to the
model; what an instruction keeps is then said once per phase. -/

namespace Sys2Proof.Machine

/-! ## The phases of an instruction -/

/-- The result of `i` in its destination, the cell it names or W (40_step_and_alu.md R118). -/
def State.storeResult (s : State) (i : Instr) : State :=
  match destCell i s with
  | some p => s.cellWrite p (resultOf i s)
  | none => if writesW i then s.setW (resultOf i s) else s

/-- What `i` does besides its destination and its STATUS bits: the control transfers and the clearing of the
watchdog counter. -/
def State.ownEffect (s : State) (i : Instr) : State :=
  match i with
  | .goto kbig => { s with pc := jumpTarget kbig }
  | .call kbig => { s.push (s.pc + 1) with pc := jumpTarget kbig }
  | .ret => s.popPc
  | .retlw _ _ => s.popPc
  | .retfie => s.returnFromInterrupt
  | .clrwdt => { s with wdt := 0 }
  | _ => s

/-- What the Execute phase of `i` leaves. -/
def State.executed (s : State) (i : Instr) : State :=
  ((s.storeResult i).writeBits (flagsOf i s)).ownEffect i

/-- The cycles of a non-branching instruction (40_step_and_alu.md R114). -/
def retireCycles (i : Instr) (s : State) : Nat := if i = .sleep then 2 else skipCycles (skips i s)

/-- What `i` leaves at the end of its step. -/
def State.afterInstr (s : State) (i : Instr) : State :=
  if isBranching i then (s.executed i).retireBranch
  else (s.executed i).retire (skips i s) (retireCycles i s)

/-- Every instruction goes through these phases. -/
theorem exec_eq (i : Instr) (s : State) : exec i s = .next (s.afterInstr i) := by
  cases i with
  | goto | call | ret | retlw | retfie | nop | clrwdt | sleep | clrf | clrw | movwf | bcf | bsf | btfsc | btfss
  | andlw | iorlw | movlw | xorlw | undecodable => rfl
  | andwf d | iorwf d | movf d | xorwf d | swapf d => cases d <;> rfl
  | addlw x k =>
    show finishLiteralCDCZ (aluAdd s.w k.toNat) s = _
    rw [aluAdd_eq]
    rfl
  | sublw x k =>
    show finishLiteralCDCZ (aluSub k s.w) s = _
    rw [aluSub_eq]
    rfl
  | addwf d f | subwf d f | comf d f | decf d f | incf d f | decfsz d f | incfsz d f | rlf d f | rrf d f =>
    simp only [exec, execAddwf, execSubwf, execComf, execDecf, execIncf, execDecfsz, execIncfsz, execRlf, execRrf,
      aluAdd_eq, aluSub_eq, aluCom_eq, aluDec_eq, aluInc_eq, aluRlc_eq, aluRrc_eq]
    cases d <;> rfl

theorem afterInstr_of_exec {i : Instr} {s t : State} (h : exec i s = .next t) : s.afterInstr i = t :=
  Host.Outcome.next.inj ((exec_eq i s).symm.trans h)

/-- The bits `flagsOf` gives values to are the ones the opcode map lists. -/
theorem map_fst_flagsOf (i : Instr) (s : State) : (flagsOf i s).map Prod.fst = statusBits i := by
  cases i <;> rfl

/-! ## What each phase leaves of the registers outside the register file -/

section
variable (s : State) (i : Instr)

theorem State.storeResult_w (h : writesW i = false) : (s.storeResult i).w = s.w := by
  unfold State.storeResult
  split
  · exact s.cellWrite_w _ _
  · simp [h]

theorem sameHidden_storeResult : SameHidden s (s.storeResult i) := by
  unfold State.storeResult
  split
  · simp [SameHidden]
  · split <;> exact SameHidden.refl s

@[simp] theorem State.writeBits_w (bits : List (Nat × Bool)) : (s.writeBits bits).w = s.w :=
  (s.writeBits_keeps bits).1

theorem sameHidden_writeBits (bits : List (Nat × Bool)) : SameHidden s (s.writeBits bits) := by
  obtain ⟨-, -, -, -, -, h⟩ := s.writeBits_keeps bits
  exact h

@[simp] theorem State.ownEffect_w : (s.ownEffect i).w = s.w := by
  cases i <;> rfl

@[simp] theorem State.ownEffect_wdt : (s.ownEffect i).wdt = if i = .clrwdt then 0 else s.wdt := by
  cases i <;> rfl

theorem State.ownEffect_keeps :
    (s.ownEffect i).pre = s.pre ∧ (s.ownEffect i).prog = s.prog ∧ (s.ownEffect i).inputs = s.inputs := by
  cases i <;> exact ⟨rfl, rfl, rfl⟩

theorem State.executed_w (h : writesW i = false) : (s.executed i).w = s.w := by
  simp [State.executed, s.storeResult_w i h]

theorem State.executed_wdt : (s.executed i).wdt = if i = .clrwdt then 0 else s.wdt := by
  obtain ⟨-, hb, -, -⟩ := sameHidden_writeBits (s.storeResult i) (flagsOf i s)
  obtain ⟨-, hs, -, -⟩ := sameHidden_storeResult s i
  simp [State.executed, hb, hs]

theorem State.executed_keeps :
    (s.executed i).pre = s.pre ∧ (s.executed i).prog = s.prog ∧ (s.executed i).inputs = s.inputs := by
  obtain ⟨ho₁, ho₂, ho₃⟩ := ((s.storeResult i).writeBits (flagsOf i s)).ownEffect_keeps i
  obtain ⟨hb₁, -, hb₂, hb₃⟩ := sameHidden_writeBits (s.storeResult i) (flagsOf i s)
  obtain ⟨hs₁, -, hs₂, hs₃⟩ := sameHidden_storeResult s i
  exact ⟨ho₁.trans (hb₁.trans hs₁), ho₂.trans (hb₂.trans hs₂), ho₃.trans (hb₃.trans hs₃)⟩

/-- Phases 5 and 6 leave W, PRE, WDT, program memory and the events. -/
theorem State.afterInstr_keeps :
    (s.afterInstr i).w = (s.executed i).w ∧ SameHidden (s.executed i) (s.afterInstr i) := by
  unfold State.afterInstr
  split <;> simp [SameHidden]

/-! ## What each phase leaves of the cells -/

theorem State.cell_storeResult_ne {q : Byte} (h : destCell i s ≠ some q) :
    (s.storeResult i).cell q = s.cell q := by
  unfold State.storeResult
  split
  · next p hp =>
    have hq : q ≠ p := fun hq => h (hq ▸ hp)
    simp [State.cell_cellWrite, hq]
  · split <;> rfl

/-- A STATUS bit that is not among those written keeps its value. -/
theorem State.cellBit_writeBits_of_notMem (bits : List (Nat × Bool)) {j : Nat} (hj : j < 8)
    (h : j ∉ bits.map Prod.fst) : (s.writeBits bits).cellBit statusAddr j = s.cellBit statusAddr j := by
  unfold State.writeBits
  induction bits generalizing s with
  | nil => rfl
  | cons b bits ih =>
    obtain ⟨hne, hmem⟩ : j ≠ b.1 ∧ j ∉ bits.map Prod.fst := by simpa using h
    rw [List.foldl_cons, ih _ hmem, State.cellBit_setCellBit _ _ _ _ _ _ hj, if_neg fun hc => hne hc.2]

theorem State.cell_ownEffect_ne {q : Byte} (h : q ≠ intconAddr) : (s.ownEffect i).cell q = s.cell q := by
  cases i with
  | retfie => exact State.cell_setCellBit_ne _ _ _ h
  | _ => rfl

theorem State.cell_afterInstr_ne {q : Byte} (h1 : q ≠ tmr0Addr) (hB : q ≠ intconAddr) :
    (s.afterInstr i).cell q = (s.executed i).cell q := by
  unfold State.afterInstr
  split
  · rfl
  · exact State.cell_retire_ne _ _ _ h1 hB

theorem State.status_executed {j : Nat} (hj : j < 8) (hd : destCell i s ≠ some statusAddr)
    (hb : j ∉ statusBits i) : (s.executed i).cellBit statusAddr j = s.cellBit statusAddr j := by
  have hf : j ∉ (flagsOf i s).map Prod.fst := by rwa [map_fst_flagsOf]
  calc (s.executed i).cellBit statusAddr j
      = ((s.storeResult i).writeBits (flagsOf i s)).cellBit statusAddr j :=
        congrArg (·.getLsbD j) (State.cell_ownEffect_ne _ i (by decide))
    _ = (s.storeResult i).cellBit statusAddr j := State.cellBit_writeBits_of_notMem _ _ hj hf
    _ = s.cellBit statusAddr j := congrArg (·.getLsbD j) (s.cell_storeResult_ne i hd)

end

/-- Settles O32: of the phases only the flag write touches STATUS when it is no destination. -/
theorem instructionStatusFrame : Obligations.InstructionStatusFrame := by
  intro i s t j ht hj hd hb
  obtain rfl := afterInstr_of_exec ht
  calc (s.afterInstr i).cellBit statusAddr j
      = (s.executed i).cellBit statusAddr j :=
        congrArg (·.getLsbD j) (s.cell_afterInstr_ne i (by decide) (by decide))
    _ = s.cellBit statusAddr j := s.status_executed i hj hd hb

/-- Settles O33: the frames of the phases together. -/
theorem instructionHiddenFrame : Obligations.InstructionHiddenFrame := by
  intro i s t ht
  obtain rfl := afterInstr_of_exec ht
  obtain ⟨hw, hpre, hwdt, hprog, hinputs⟩ := s.afterInstr_keeps i
  obtain ⟨epre, eprog, einputs⟩ := s.executed_keeps i
  exact ⟨fun h => hw.trans (s.executed_w i h), hwdt.trans (s.executed_wdt i), hpre.trans epre,
    hprog.trans eprog, hinputs.trans einputs⟩

/-! ## The counters no instruction reads -/

/-- `s` with PRE and WDT replaced and CYC ahead by `n`. -/
def State.withCounters (s : State) (p x : Byte) (n : Nat) : State :=
  { s with pre := p, wdt := x, cyc := s.cyc + n }

section
variable (s : State) (i : Instr) (p x : Byte) (n : Nat)

theorem State.cell_withCounters (q : Byte) : (s.withCounters p x n).cell q = s.cell q := rfl

theorem State.setCell_withCounters (q v : Byte) :
    (s.withCounters p x n).setCell q v = (s.setCell q v).withCounters p x n := rfl

theorem State.cellWrite_withCounters (q v : Byte) :
    (s.withCounters p x n).cellWrite q v = (s.cellWrite q v).withCounters p x n := by
  unfold State.cellWrite
  repeat' split
  all_goals rfl

theorem destCell_withCounters : destCell i (s.withCounters p x n) = destCell i s := rfl

theorem resultOf_withCounters : resultOf i (s.withCounters p x n) = resultOf i s := by
  cases i <;> rfl

theorem flagsOf_withCounters : flagsOf i (s.withCounters p x n) = flagsOf i s := by
  cases i <;> rfl

theorem skips_withCounters : skips i (s.withCounters p x n) = skips i s := by
  cases i <;> rfl

theorem State.storeResult_withCounters :
    (s.withCounters p x n).storeResult i = (s.storeResult i).withCounters p x n := by
  unfold State.storeResult
  rw [destCell_withCounters, resultOf_withCounters]
  split
  · exact s.cellWrite_withCounters p x n _ _
  · split <;> rfl

theorem State.writeBits_withCounters (bits : List (Nat × Bool)) :
    (s.withCounters p x n).writeBits bits = (s.writeBits bits).withCounters p x n := by
  unfold State.writeBits
  induction bits generalizing s with
  | nil => rfl
  | cons b bits ih => exact ih (s.setCellBit statusAddr b.1 b.2)

theorem State.ownEffect_withCounters :
    (s.withCounters p x n).ownEffect i
      = (s.ownEffect i).withCounters p (if i = .clrwdt then 0 else x) n := by
  cases i <;> rfl

theorem State.executed_withCounters :
    (s.withCounters p x n).executed i = (s.executed i).withCounters p (if i = .clrwdt then 0 else x) n := by
  unfold State.executed
  rw [flagsOf_withCounters, State.storeResult_withCounters, State.writeBits_withCounters,
    State.ownEffect_withCounters]

theorem State.takeInterrupt_withCounters (flag : Nat) :
    (s.withCounters p x n).takeInterrupt flag = (s.takeInterrupt flag).withCounters p x n := by
  have hc : s.cyc + n + 1 = s.cyc + 1 + n := Nat.add_right_comm ..
  show { (s.takeInterrupt flag).withCounters p x n with cyc := s.cyc + n + 1 } = _
  rw [hc]
  rfl

theorem State.tmr0Increment_withCounters :
    (s.withCounters p x n).tmr0Increment = s.tmr0Increment.withCounters p x n := by
  by_cases h : s.cell tmr0Addr = 0xFF#8 ∧ s.interruptsEnabled t0ieBit = true
  · obtain ⟨hv, he⟩ := h
    rw [s.tmr0Increment_overflow hv he, (s.withCounters p x n).tmr0Increment_overflow hv he,
      State.setCell_withCounters, State.takeInterrupt_withCounters]
  · rw [not_and_or, Bool.not_eq_true] at h
    rw [s.tmr0Increment_count h, (s.withCounters p x n).tmr0Increment_count h,
      State.cell_withCounters, State.setCell_withCounters]

theorem State.retire_withCounters (skip : Bool) (cycles : Nat) :
    (s.withCounters p x n).retire skip cycles = (s.retire skip cycles).withCounters p x n := by
  have hc : s.cyc + n + cycles = s.cyc + cycles + n := Nat.add_right_comm ..
  cases h : s.cellBit optionAddr t0csBit
  · rw [s.retire_internal skip cycles h, (s.withCounters p x n).retire_internal skip cycles h,
      ← State.tmr0Increment_withCounters]
    simp only [State.withCounters, hc]
  · rw [s.retire_counter skip cycles h, (s.withCounters p x n).retire_counter skip cycles h]
    simp only [State.withCounters, hc]

theorem State.retireBranch_withCounters :
    (s.withCounters p x n).retireBranch = s.retireBranch.withCounters p x n := by
  simp only [State.retireBranch, State.withCounters, Nat.add_right_comm]

theorem State.afterInstr_withCounters :
    (s.withCounters p x n).afterInstr i
      = (s.afterInstr i).withCounters p (if i = .clrwdt then 0 else x) n := by
  unfold State.afterInstr retireCycles
  rw [State.executed_withCounters, skips_withCounters]
  split
  · exact State.retireBranch_withCounters ..
  · exact State.retire_withCounters ..

end

/-- Settles O34: every phase commutes with the replacement of the counters. -/
theorem instructionsDoNotReadCounters : Obligations.InstructionsDoNotReadCounters := by
  intro i s t p x n ht
  obtain rfl := afterInstr_of_exec ht
  exact (exec_eq i (s.withCounters p x n)).trans
    (congrArg Host.Outcome.next (s.afterInstr_withCounters i p x n))

/-! ## The invariant under every event -/

section
variable {s : State} (h : s.Inv)
include h

theorem State.Inv.storeResult (i : Instr) : (s.storeResult i).Inv := by
  unfold State.storeResult
  split
  · exact h.cellWrite _ _
  · split <;> exact h

theorem State.Inv.writeBits (bits : List (Nat × Bool)) : (s.writeBits bits).Inv := by
  unfold State.writeBits
  induction bits generalizing s with
  | nil => exact h
  | cons b bits ih => exact ih (h.setCellBit b.1 b.2 (by decide) (by decide))

theorem State.Inv.ownEffect (i : Instr) : (s.ownEffect i).Inv := by
  have ⟨hcells, hprog, _⟩ := h
  cases i with
  | clrwdt => exact ⟨hcells, hprog, show (0 : Byte).toNat < 128 by decide⟩
  | retfie => exact State.Inv.setCellBit (s := s.popPc) h gieBit true (by decide) (by decide)
  | _ => exact h

theorem State.Inv.afterInstr (i : Instr) : (s.afterInstr i).Inv := by
  have he : (s.executed i).Inv := ((h.storeResult i).writeBits _).ownEffect i
  unfold State.afterInstr
  split
  · exact he
  · exact he.retire _ _

theorem State.Inv.runInstruction {t : State} (ht : runInstruction s = .next t) : t.Inv := by
  unfold Machine.runInstruction at ht
  split at ht
  · obtain rfl := afterInstr_of_exec ht
    exact h.afterInstr _
  · cases ht

theorem State.Inv.ra4Edge (level : Level) : (s.ra4Edge level).Inv := by
  unfold State.ra4Edge
  dsimp only
  split
  · split
    · exact h.tmr0Increment
    · exact h.prescalerTick
  · exact h

theorem State.Inv.rb0Edge (level : Level) : (s.rb0Edge level).Inv := by
  unfold State.rb0Edge
  dsimp only
  split
  · exact h.takeInterrupt _
  · exact h

theorem State.Inv.rbChange : s.rbChange.Inv := by
  unfold State.rbChange
  split
  · exact h.takeInterrupt _
  · exact h

theorem State.Inv.pinChanged (pin : Pin) (level : Level) : (s.pinChanged pin level).Inv := by
  cases pin with
  | ra4 => exact h.ra4Edge level
  | rb0 => exact h.rb0Edge level
  | rb4 | rb5 | rb6 | rb7 => exact h.rbChange
  | ra0 | ra1 | ra2 | ra3 | rb1 | rb2 | rb3 => exact h

theorem State.Inv.wdtTick : s.wdtTick.Inv := by
  unfold State.wdtTick
  split
  · exact h.prescalerTick
  · exact h.wdtIncrement

theorem State.Inv.progWrite (addr : BitVec 10) (word : ProgWord) : (s.progWrite addr word).Inv := by
  obtain ⟨hcells, hprog, hwdt⟩ := h
  exact ⟨hcells, ProgMemory.wf_write hprog addr.isLt, hwdt⟩

theorem State.Inv.progReset : s.progReset.Inv := by
  obtain ⟨hcells, -, hwdt⟩ := h
  exact ⟨hcells, rfl, hwdt⟩

theorem State.Inv.deliver {e : Event} {t : State} (ht : deliver e s = .next t) : t.Inv := by
  cases e with
  | step => exact h.runInstruction ht
  | pinChanged pin level => cases ht; exact h.pinChanged pin level
  | wdtTick => cases ht; exact h.wdtTick
  | reset => cases ht; exact h.softReset
  | powerOnReset =>
    obtain rfl : s.powerOnReset = t := Host.Outcome.next.inj ht
    exact h.powerOnReset
  | progWrite addr word => cases ht; exact h.progWrite addr word
  | progReset => cases ht; exact h.progReset

end

/-- Settles O8: taking an event off the list leaves the cells, program memory and WDT, and delivering it keeps
the invariant. -/
theorem stepKeepsMachineForm : Obligations.StepKeepsMachineForm := by
  intro s t hs ht
  have hpop : s.popInput.Inv := hs
  exact hpop.deliver ht

/-- Settles O9: no cell and no word is listed, and WDT is 0. -/
theorem resetStateHasMachineForm : Obligations.ResetStateHasMachineForm :=
  ⟨rfl, rfl, show (0 : Byte).toNat < 128 by decide⟩

end Sys2Proof.Machine

/-! SUPPORT. The operations of spec 20_memory.md on their own: the access pipeline, program memory and the
return stack. -/

namespace Sys2Proof.Machine

/-! ## Address resolution -/

theorem isAliased_iff (a : Byte) : isAliased a = true ↔ a ∈ [(1 : Byte), 5, 6, 8, 9] := by
  simp [isAliased, or_assoc]

@[simp] theorem bankAdjust_false (a : Byte) : bankAdjust false a = a := rfl

theorem bankAdjust_of_notAliased {a : Byte} (bank : Bool) (h : a ∉ [(1 : Byte), 5, 6, 8, 9]) :
    bankAdjust bank a = a := by
  simp [bankAdjust, mt (isAliased_iff a).1 h]

/-- The bank-1 cell of an aliased address (20_memory.md R62); it is neither address 0 nor the bank-0 cell. -/
theorem bankAdjust_true_of_aliased : ∀ a ∈ [(1 : Byte), 5, 6, 8, 9],
    bankAdjust true a = BitVec.ofNat 8 (a.toNat + 128) ∧ bankAdjust true a ≠ 0 ∧ bankAdjust true a ≠ a := by
  decide

/-- The bank adjustment gives address 0 for address 0 only. -/
theorem bankAdjust_ne_zero {a : Byte} (bank : Bool) (h : a ≠ 0) : bankAdjust bank a ≠ 0 := by
  by_cases ha : a ∈ [(1 : Byte), 5, 6, 8, 9]
  · obtain ⟨-, hbank1, -⟩ := bankAdjust_true_of_aliased a ha
    cases bank
    · exact h
    · exact hbank1
  · rwa [bankAdjust_of_notAliased bank ha]

section
variable (s : State)

theorem State.resolve_zero : s.resolve 0 = s.cell fsrAddr := by
  have h : s.adjustAdr 0 = 0 := bankAdjust_of_notAliased _ (by decide)
  exact if_pos h

theorem State.resolve_of_ne_zero {a : Byte} (h : a ≠ 0) :
    s.resolve a = bankAdjust (s.cellBit statusAddr rp0Bit) a :=
  if_neg (bankAdjust_ne_zero _ h)

/-- The address resolved after RP0 is set to `bank`. -/
theorem State.resolve_setRp0 {a : Byte} (bank : Bool) (h : a ≠ 0) :
    (s.setCellBit statusAddr rp0Bit bank).resolve a = bankAdjust bank a := by
  rw [State.resolve_of_ne_zero _ h, State.cellBit_setCellBit _ _ _ _ _ _ (by decide)]
  rfl

end

/-- Settles O35: address 0 is in no bank, and the bank adjustment gives it for no other address. -/
theorem resolveGivesTheAddressedCell : Obligations.ResolveGivesTheAddressedCell := by
  intro s a
  by_cases h0 : a = 0
  · rw [if_pos h0, h0, s.resolve_zero]
  rw [if_neg h0, s.resolve_of_ne_zero h0]
  by_cases ha : a ∈ [(1 : Byte), 5, 6, 8, 9]
  · obtain ⟨hbank1, -, -⟩ := bankAdjust_true_of_aliased a ha
    cases s.cellBit statusAddr rp0Bit
    · exact (if_neg fun h => Bool.false_ne_true h.1).symm
    · exact hbank1.trans (if_pos ⟨rfl, ha⟩).symm
  · rw [bankAdjust_of_notAliased _ ha, if_neg fun h => ha h.2]

/-! ## Reads and writes of a cell -/

section
variable (s : State)

/-- A bit written in a cell changes the reads of no other cell. -/
theorem State.cellRead_setCellBit_ne {p q : Byte} (j : Nat) (b : Bool) (h : q ≠ p) :
    (s.setCellBit p j b).cellRead q = s.cellRead q :=
  State.cellRead_congr s (t := s.setCellBit p j b) rfl (s.cell_setCellBit_ne j b h)

theorem sameStack_cellWrite (p v : Byte) : SameStack s (s.cellWrite p v) :=
  ⟨s.cellWrite_sp p v, fun i => congrArg (·[i]) (s.cellWrite_stk p v)⟩

theorem sameHidden_cellWrite (p v : Byte) : SameHidden s (s.cellWrite p v) :=
  ⟨s.cellWrite_pre p v, s.cellWrite_wdt p v, s.cellWrite_prog p v, s.cellWrite_inputs p v⟩

theorem State.bitWrite_eq (a : Byte) (b : Nat) (v : Bool) :
    s.bitWrite a b v = s.cellWrite (s.resolve a) (withBit (s.cellRead (s.resolve a)) b v) := rfl

end

/-- The five bits PCLATH keeps of a byte (20_memory.md R65). -/
theorem getLsbD_and_pclathMask (v : Byte) {j : Nat} (hj : j < 8) :
    (v &&& 0x1F).getLsbD j = if 5 ≤ j then false else v.getLsbD j := by
  have hmask : (0x1F : Byte).getLsbD j = decide (j < 5) := by
    interval_cases j <;> rfl
  rw [BitVec.getLsbD_and, hmask]
  by_cases h : 5 ≤ j
  · simp [h]
  · simp [h, Nat.lt_of_not_le h]

/-- Settles O37: the byte written back is the one read with one bit replaced, and PCLATH keeps five bits of it. -/
theorem bitWriteReplacesOneBit : Obligations.BitWriteReplacesOneBit := by
  intro s a b v
  rw [State.bitWrite_eq]
  refine ⟨fun j hj => ?_, fun q hq => ?_, State.cellWrite_w .., State.cellWrite_cyc ..,
    sameStack_cellWrite .., sameHidden_cellWrite ..⟩
  · rw [State.cellRead_cellWrite, if_pos rfl, ← getLsbD_withBit _ _ _ _ hj]
    by_cases hp : s.resolve a = pclathAddr
    · simp only [hp, if_true, true_and, getLsbD_and_pclathMask _ hj]
    · simp only [hp, if_false, false_and]
  · rw [State.cellRead_cellWrite, if_neg hq]

/-- Settles O38: in bank 1 the write goes to a cell of its own exactly when the address is aliased, and a change
of RP0 leaves every cell but STATUS. -/
theorem banksDifferOnAliasedSet : Obligations.BanksDifferOnAliasedSet := by
  intro s a v h0 hstatus hpclath
  simp only [State.memRead, State.memWrite, State.resolve_setRp0 _ _ h0, bankAdjust_false,
    State.cellRead_setCellBit_ne _ _ _ hstatus, State.cellRead_cellWrite]
  by_cases ha : a ∈ [(1 : Byte), 5, 6, 8, 9]
  · obtain ⟨-, -, hne⟩ := bankAdjust_true_of_aliased a ha
    rw [if_neg hne.symm, if_pos ha]
  · rw [bankAdjust_of_notAliased true ha, if_pos rfl, if_neg hpclath, if_neg ha]

/-! ## Program memory -/

section
variable (s : State) {b : PcWord} (hb : b.toNat < 1024)
include hb

theorem State.progRead_progWrite (a : BitVec 10) (word : ProgWord) :
    (s.progWrite a word).progRead b = if b.toNat = a.toNat then some word else s.progRead b := by
  simp only [State.progRead, State.progWrite, hb, if_true, listRead_listWrite, apply_ite some]

theorem State.progRead_progReset : s.progReset.progRead b = some 0 := if_pos hb

end

/-- Settles O39: both events replace program memory and no other field. -/
theorem programLoadWritesProgramMemory : Obligations.ProgramLoadWritesProgramMemory := fun s a w _ hb =>
  ⟨⟨s.progWrite a w, rfl, s.progRead_progWrite hb a w, rfl⟩, ⟨s.progReset, rfl, s.progRead_progReset hb, rfl⟩⟩

/-! ## The return stack -/

/-- What pop number `n`, counted from 0, returns: slot SP - (`n` + 1), modulo 8 (20_memory.md R81). -/
def State.nthPop (s : State) (n : Nat) : PcWord := s.peek (s.sp - BitVec.ofNat 3 (n + 1)).toFin

section
variable (s : State)

theorem State.nthPop_zero : s.nthPop 0 = s.popValue := rfl

/-- The stack is circular: the eighth pop after a pop returns the same slot. -/
theorem State.nthPop_eight : s.nthPop 8 = s.popValue := rfl

theorem State.nthPop_succ (n : Nat) : s.nthPop (n + 1) = s.popState.nthPop n := by
  have hslot : s.sp - BitVec.ofNat 3 (n + 1 + 1) = s.sp - 1 - BitVec.ofNat 3 (n + 1) := by
    rw [BitVec.ofNat_add]
    exact sub_add_eq_sub_sub_swap ..
  exact congrArg (fun i => s.peek (BitVec.toFin i)) hslot

theorem State.popMany_eq_map (n : Nat) : State.popMany n s = (List.range n).map s.nthPop := by
  induction n generalizing s with
  | zero => rfl
  | succ n ih =>
    rw [List.range_succ_eq_map, List.map_cons, List.map_map, s.nthPop_zero]
    exact congrArg (s.popValue :: ·) ((ih s.popState).trans
      (List.map_congr_left fun n _ => (s.nthPop_succ n).symm))

/-- Seven pops after the value pushed is popped return what they did before the push. -/
theorem State.nthPop_succ_push (v : PcWord) {n : Nat} (hn : n < 7) :
    (s.push v).nthPop (n + 1) = s.nthPop n := by
  have hslot : s.sp + 1 - BitVec.ofNat 3 (n + 1 + 1) = s.sp - BitVec.ofNat 3 (n + 1) := by
    rw [BitVec.ofNat_add]
    exact add_sub_add_right_eq_sub ..
  have hne : (s.sp - BitVec.ofNat 3 (n + 1)).toNat ≠ s.sp.toNat := by
    rw [Ne, BitVec.toNat_inj, sub_eq_self, ← BitVec.toNat_inj, BitVec.toNat_ofNat]
    show (n + 1) % 8 ≠ 0
    omega
  simp only [State.nthPop, State.push_sp, hslot]
  exact (s.peek_push v _).trans (if_neg hne)

theorem State.popMany_push (v : PcWord) {n : Nat} (hn : n < 8) :
    State.popMany (n + 1) (s.push v) = v :: State.popMany n s := by
  show (s.push v).popValue :: State.popMany n (s.push v).popState = _
  rw [s.popValue_push, State.popMany_eq_map, State.popMany_eq_map]
  refine congrArg (v :: ·) (List.map_congr_left fun i hi => ?_)
  rw [← State.nthPop_succ]
  exact s.nthPop_succ_push v ((List.mem_range.1 hi).trans_le (Nat.le_of_lt_succ hn))

theorem State.pushAll_concat (vs : List PcWord) (v : PcWord) :
    s.pushAll (vs ++ [v]) = (s.pushAll vs).push v := List.foldl_concat ..

theorem State.pushAll_sp (vs : List PcWord) : (s.pushAll vs).sp = s.sp + BitVec.ofNat 3 vs.length := by
  induction vs generalizing s with
  | nil => exact (BitVec.add_zero s.sp).symm
  | cons v vs ih =>
    rw [List.length_cons, Nat.add_comm, BitVec.ofNat_add, ← BitVec.add_assoc]
    exact ih (s.push v)

/-- Up to eight values pushed are popped in reverse (20_memory.md R82). -/
theorem State.popMany_pushAll {vs : List PcWord} {n : Nat} (hvs : vs.length = n) (hn : n ≤ 8) :
    State.popMany n (s.pushAll vs) = vs.reverse := by
  subst hvs
  induction vs using List.reverseRecOn with
  | nil => rfl
  | append_singleton vs v ih =>
    rw [List.length_append, List.length_singleton] at hn ⊢
    rw [s.pushAll_concat, State.popMany_push _ v hn, ih (Nat.le_of_succ_le hn), List.reverse_concat]

/-- Nine pops are eight and, the stack being circular, the first of them again. -/
theorem State.popMany_nine : State.popMany 9 s = State.popMany 8 s ++ [s.popValue] := by
  rw [State.popMany_eq_map, State.popMany_eq_map, List.range_succ, List.map_append, List.map_singleton,
    s.nthPop_eight]

end

/-- Settles O40: the first of nine values is pushed onto a stack from which the other eight are popped. -/
theorem ninthPushOverwritesFirst : Obligations.NinthPushOverwritesFirst := by
  intro s vs hvs
  have hsp : (s.pushAll vs).sp = s.sp + 1 := by rw [s.pushAll_sp, hvs]; rfl
  obtain ⟨first, rest, rfl⟩ := List.exists_cons_of_length_eq_add_one hvs
  obtain ⟨mid, last, rfl⟩ := (List.eq_nil_or_concat' rest).resolve_left (by rintro rfl; cases hvs)
  have hmid : mid.length = 7 := by simpa using hvs
  have height : State.popMany 8 (s.pushAll (first :: (mid ++ [last]))) = (mid ++ [last]).reverse :=
    (s.push first).popMany_pushAll (by simp [hmid]) le_rfl
  have hlast : (s.pushAll (first :: (mid ++ [last]))).popValue = last := by
    rw [← List.cons_append, s.pushAll_concat, State.popValue_push]
  have hdrop : (first :: (mid ++ [last])).drop 8 = [last] := by
    rw [List.drop_succ_cons, ← hmid, List.drop_left]
  exact ⟨height, by rw [State.popMany_nine, height, hlast, hdrop]; rfl, hsp⟩

end Sys2Proof.Machine

/-! SUPPORT. Encoder and decoder (spec 30_encoding.md). An opcode is the word's leading bits, and but for the
four fixed words no opcode begins another, so a word with one opcode fails the decoder's other tests; and a word is
its opcode followed by its fields, so the fields read out of it encode back to it. -/

namespace Sys2Proof

/-! ## Opcodes as leading bits (R94) -/

section
variable {w : ProgWord} {n p : Nat}

/-- The bits a test of the decoder compares. -/
theorem opcode_of_hasPrefix (h : hasPrefix w n p = true) : w.extractLsb' (14 - n) n = BitVec.ofNat n p := by
  rw [hasPrefix, beq_iff_eq] at h
  rw [← h]
  rfl

/-- The bits a row's mask covers are those of its match. -/
theorem opcode_of_masked {m r : ProgWord} {k : Nat} (h : w &&& m = r)
    (hm : m.extractLsb' k n = BitVec.allOnes n) : w.extractLsb' k n = r.extractLsb' k n := by
  rw [← h, BitVec.extractLsb'_and, hm, BitVec.and_allOnes]

/-- Of two opcodes that disagree where they overlap a word has only one. -/
theorem hasPrefix_eq_false {m q : Nat} (h : hasPrefix w n p = true) (hn : n ≤ 14) (hm : m ≤ 14)
    (hne : p >>> (n - m) ≠ q >>> (m - n)) : hasPrefix w m q = false := by
  rw [← Bool.not_eq_true]
  intro h'
  rw [hasPrefix, beq_iff_eq] at h h'
  rw [← h, ← h', ← Nat.shiftRight_add, ← Nat.shiftRight_add] at hne
  exact hne (congrArg (w.toNat >>> ·) (by omega))

theorem ne_of_hasPrefix {v : ProgWord} (h : hasPrefix w n p = true) (hv : hasPrefix v n p = false) : w ≠ v := by
  rintro rfl
  exact Bool.noConfusion (hv.symm.trans h)

end

/-! ## A word as its opcode and its fields (R91) -/

section
variable {n a b : Nat}

theorem opcode_append_field {w : BitVec (n + b)} {o : BitVec n} (h : w.extractLsb' b n = o) :
    o ++ w.extractLsb' 0 b = w := by
  rw [← h, BitVec.extractLsb'_append_extractLsb'_eq_extractLsb' (Nat.zero_add b).symm, BitVec.extractLsb'_eq_self]

theorem opcode_append_fields {w : BitVec (n + a + b)} {o : BitVec n} (h : w.extractLsb' (b + a) n = o) :
    o ++ w.extractLsb' b a ++ w.extractLsb' 0 b = w := by
  refine opcode_append_field ?_
  rw [← h, BitVec.extractLsb'_append_extractLsb'_eq_extractLsb' rfl]

variable (o : BitVec n) (x : BitVec a) (y : BitVec b)

theorem middle_of_append_append : (o ++ x ++ y).extractLsb' b a = x := by
  rw [BitVec.extractLsb'_append_eq_of_le le_rfl, Nat.sub_self, BitVec.extractLsb'_append_eq_right]

theorem toNat_append_shiftRight : (o ++ y).toNat >>> b = o.toNat := by
  rw [BitVec.toNat_append, Nat.shiftRight_or_distrib, Nat.shiftLeft_shiftRight, Nat.shiftRight_eq_zero _ _ y.isLt,
    Nat.or_zero]

theorem toNat_append_append_shiftRight : (o ++ x ++ y).toNat >>> (b + a) = o.toNat := by
  rw [Nat.shiftRight_add, toNat_append_shiftRight, toNat_append_shiftRight]

end

@[simp] theorem Dest.bit_ofBit (x : BitVec 1) : (Dest.ofBit x).bit = x := by
  revert x
  decide

@[simp] theorem Dest.ofBit_bit (d : Dest) : Dest.ofBit d.bit = d := by
  cases d <;> rfl

theorem Dest.ofBit_extract (w : ProgWord) :
    Dest.ofBit (w.extractLsb' 7 1) = if w.getLsbD 7 then .f else .w := by
  have h : w.extractLsb' 7 1 = BitVec.ofBool (w.getLsbD 7) := by
    ext i hi
    obtain rfl : i = 0 := by omega
    simp
  rw [h]
  cases w.getLsbD 7 <;> rfl

/-- The fields `d` and `f` behind a six-bit opcode. -/
theorem opcode_append_dest_file {w : ProgWord} {o : BitVec 6} (h : w.extractLsb' 8 6 = o) :
    o ++ (Dest.ofBit (w.extractLsb' 7 1)).bit ++ w.extractLsb' 0 7 = w := by
  rw [Dest.bit_ofBit]
  exact opcode_append_fields h

/-! ## The NOP class (R100) -/

/-- The low patterns that are no NOP are those of the four fixed words. -/
theorem nopBits_iff (x : BitVec 7) : nopBits x = true ↔ (0#7 ++ x : ProgWord) ≠ 0x0008 ∧
    (0#7 ++ x : ProgWord) ≠ 0x0009 ∧ (0#7 ++ x : ProgWord) ≠ 0x0063 ∧ (0#7 ++ x : ProgWord) ≠ 0x0064 := by
  have hw (c : BitVec 7) : (0#7 ++ x : ProgWord) = 0#7 ++ c ↔ x = c := by simp [append_eq_iff]
  simp only [nopBits, Bool.and_eq_true, bne_iff_ne, and_assoc, Ne, ← hw]
  rfl

theorem wf_nop_of_append {w : ProgWord} {x : BitVec 7} (h : 0#7 ++ x = w) (h8 : w ≠ 0x0008) (h9 : w ≠ 0x0009)
    (h63 : w ≠ 0x0063) (h64 : w ≠ 0x0064) : (Instr.nop x).wf = true := by
  subst h
  exact (nopBits_iff x).2 ⟨h8, h9, h63, h64⟩

/-! ## Decoding an encoded instruction -/

/-- How many opcode bits the row of an instruction has (R96). -/
def opcodeBits : Instr → Nat
  | .goto _ | .call _ => 3
  | .retlw _ _ | .movlw _ _ | .bcf _ _ | .bsf _ _ | .btfsc _ _ | .btfss _ _ => 4
  | .addlw _ _ | .sublw _ _ => 5
  | .addwf _ _ | .andwf _ _ | .comf _ _ | .decf _ _ | .decfsz _ _ | .incf _ _ | .incfsz _ _ | .iorwf _ _ | .movf _ _
  | .rlf _ _ | .rrf _ _ | .subwf _ _ | .swapf _ _ | .xorwf _ _ | .andlw _ | .iorlw _ | .xorlw _ | .undecodable _ => 6
  | .nop _ | .clrf _ | .clrw _ | .movwf _ => 7
  | .ret | .retfie | .clrwdt | .sleep => 14

/-- The opcode of the row, which are the top bits of its match. -/
def opcode (i : Instr) : Nat := (Laws.rowMatch i).toNat >>> (14 - opcodeBits i)

theorem hasPrefix_encode (i : Instr) : hasPrefix (encode i) (opcodeBits i) (opcode i) = true := by
  rw [hasPrefix, beq_iff_eq]
  cases i with
  | ret | retfie | clrwdt | sleep => rfl
  | goto x | call x | nop x | clrf x | clrw x | movwf x | andlw x | iorlw x | xorlw x | undecodable x =>
    exact (toNat_append_shiftRight _ x).trans (by simp [opcode, opcodeBits, Laws.rowMatch])
  | retlw x y | movlw x y | addlw x y | sublw x y | bcf x y | bsf x y | btfsc x y | btfss x y =>
    exact (toNat_append_append_shiftRight _ x y).trans (by simp [opcode, opcodeBits, Laws.rowMatch])
  | _ d f =>
    exact (toNat_append_append_shiftRight _ d.bit f).trans (by simp [opcode, opcodeBits, Laws.rowMatch])

/-- The word's opcode fails the test of every other row, its own row is taken, and that row's fields are the
operands. -/
theorem decodeWord_encode {i : Instr} (hi : i.wf = true) : decodeWord (encode i) = i := by
  have h := hasPrefix_encode i
  generalize hw : encode i = w at h ⊢
  unfold decodeWord
  cases i
  case ret | retfie | clrwdt | sleep => subst hw; rfl
  all_goals
    simp only [opcodeBits, opcode, Laws.rowMatch, Nat.reduceSub, Nat.reduceShiftRight, BitVec.reduceToNat] at h
  case nop x =>
    obtain ⟨h8, h9, h63, h64⟩ := (nopBits_iff x).1 hi
    subst hw
    exact (if_neg h8).trans <| (if_neg h9).trans <| (if_neg h63).trans <| (if_neg h64).trans <| (if_pos h).trans <|
      congrArg Instr.nop BitVec.extractLsb'_append_eq_right
  all_goals
    simp (disch := decide) only [ne_of_hasPrefix h, hasPrefix_eq_false h, h, Bool.false_eq_true, if_false, if_true]
    subst hw
  case goto | call | clrf | clrw | movwf | andlw | iorlw | xorlw | undecodable =>
    exact congrArg _ BitVec.extractLsb'_append_eq_right
  case retlw | movlw | addlw | sublw | bcf | bsf | btfsc | btfss =>
    exact congrArg₂ _ (middle_of_append_append ..) BitVec.extractLsb'_append_eq_right
  all_goals
    exact congrArg₂ _ ((congrArg Dest.ofBit (middle_of_append_append ..)).trans (Dest.ofBit_bit _))
      BitVec.extractLsb'_append_eq_right

theorem decodeWord_of_encode_eq {w : ProgWord} {i : Instr} (hw : encode i = w) (hi : i.wf = true := by rfl) :
    decodeWord w = i := hw ▸ decodeWord_encode hi

/-- Settles O3: the decoder takes the row whose opcode the encoder wrote. -/
theorem encodeThenDecode : Obligations.EncodeThenDecode := fun _ => decodeWord_encode

/-! ## Encoding a decoded word -/

/-- `i` is well formed and `w` is its word. -/
def IsWordOf (w : ProgWord) (i : Instr) : Prop := i.wf = true ∧ encode i = w

/-- One test of the decoder. -/
theorem IsWordOf.ite {w : ProgWord} {c : Prop} [Decidable c] {i j : Instr} (hi : c → IsWordOf w i)
    (hj : ¬c → IsWordOf w j) : IsWordOf w (if c then i else j) := by
  split
  · exact hi ‹_›
  · exact hj ‹_›

/-- Along the decoder's tests, in its order: the row taken has the word's opcode, and reading the row's fields and
writing them back gives the word. -/
theorem isWordOf_decodeWord (w : ProgWord) : IsWordOf w (decodeWord w) := by
  refine .ite (fun h => ⟨rfl, h.symm⟩) fun h8 => ?_
  refine .ite (fun h => ⟨rfl, h.symm⟩) fun h9 => ?_
  refine .ite (fun h => ⟨rfl, h.symm⟩) fun h63 => ?_
  refine .ite (fun h => ⟨rfl, h.symm⟩) fun h64 => ?_
  refine .ite (fun h => ?nop) fun _ => ?_
  case nop =>
    have hw := opcode_append_field (opcode_of_hasPrefix h)
    exact ⟨wf_nop_of_append hw h8 h9 h63 h64, hw⟩
  -- GOTO, CALL
  iterate 2 refine .ite (fun h => ⟨rfl, opcode_append_field (opcode_of_hasPrefix h)⟩) fun _ => ?_
  -- RETLW
  refine .ite (fun h => ⟨rfl, opcode_append_fields (opcode_of_hasPrefix h)⟩) fun _ => ?_
  -- ADDWF, ANDWF
  iterate 2 refine .ite (fun h => ⟨rfl, opcode_append_dest_file (opcode_of_hasPrefix h)⟩) fun _ => ?_
  -- CLRF, CLRW
  iterate 2 refine .ite (fun h => ⟨rfl, opcode_append_field (opcode_of_hasPrefix h)⟩) fun _ => ?_
  -- COMF, DECF, DECFSZ, INCF, INCFSZ, IORWF, MOVF
  iterate 7 refine .ite (fun h => ⟨rfl, opcode_append_dest_file (opcode_of_hasPrefix h)⟩) fun _ => ?_
  -- MOVWF
  refine .ite (fun h => ⟨rfl, opcode_append_field (opcode_of_hasPrefix h)⟩) fun _ => ?_
  -- RLF, RRF, SUBWF, SWAPF, XORWF
  iterate 5 refine .ite (fun h => ⟨rfl, opcode_append_dest_file (opcode_of_hasPrefix h)⟩) fun _ => ?_
  -- BCF, BSF, BTFSC, BTFSS, ADDLW
  iterate 5 refine .ite (fun h => ⟨rfl, opcode_append_fields (opcode_of_hasPrefix h)⟩) fun _ => ?_
  -- ANDLW, IORLW
  iterate 2 refine .ite (fun h => ⟨rfl, opcode_append_field (opcode_of_hasPrefix h)⟩) fun _ => ?_
  -- MOVLW, SUBLW
  iterate 2 refine .ite (fun h => ⟨rfl, opcode_append_fields (opcode_of_hasPrefix h)⟩) fun _ => ?_
  -- XORLW
  refine .ite (fun h => ⟨rfl, opcode_append_field (opcode_of_hasPrefix h)⟩) fun _ => ?_
  -- What no test takes has the opcode of the undecodable class (R99).
  have hlt := w.isLt
  have h : hasPrefix w 6 0b111011 = true := by
    simp only [hasPrefix, beq_iff_eq, Nat.reduceSub, Nat.shiftRight_eq_div_pow, Nat.reducePow] at *
    omega
  exact ⟨rfl, opcode_append_field (opcode_of_hasPrefix h)⟩

/-- Settles O4: whichever row the decoder takes, the word is that row's opcode and fields. -/
theorem everyWordDecodesAndEncodesBack : Obligations.EveryWordDecodesAndEncodesBack := isWordOf_decodeWord

/-! ## The opcode map (R96) -/

/-- Settles O2: a word that meets a row's mask and match is the word of the row with the fields cut out of it. -/
theorem decoderFollowsOpcodeMap : Obligations.DecoderFollowsOpcodeMap := by
  intro w
  simp only [← Dest.ofBit_extract]
  -- GOTO, CALL
  iterate 2 refine ⟨fun h => decodeWord_of_encode_eq (opcode_append_field (opcode_of_masked h rfl)), ?_⟩
  -- RETURN
  refine ⟨fun h => decodeWord_of_encode_eq h.symm, ?_⟩
  -- RETLW
  refine ⟨fun h => decodeWord_of_encode_eq (opcode_append_fields (opcode_of_masked h rfl)), ?_⟩
  -- RETFIE
  refine ⟨fun h => decodeWord_of_encode_eq h.symm, ?_⟩
  -- NOP
  refine ⟨fun h h8 h9 h63 h64 => ?nop, ?_⟩
  case nop =>
    have hw : 0#7 ++ w.extractLsb' 0 7 = w := opcode_append_field (opcode_of_masked h rfl)
    exact decodeWord_of_encode_eq hw (wf_nop_of_append hw h8 h9 h63 h64)
  -- CLRWDT, SLEEP
  iterate 2 refine ⟨fun h => decodeWord_of_encode_eq h.symm, ?_⟩
  -- ADDWF, ANDWF
  iterate 2 refine ⟨fun h => decodeWord_of_encode_eq (opcode_append_dest_file (opcode_of_masked h rfl)), ?_⟩
  -- CLRF, CLRW
  iterate 2 refine ⟨fun h => decodeWord_of_encode_eq (opcode_append_field (opcode_of_masked h rfl)), ?_⟩
  -- COMF, DECF, DECFSZ, INCF, INCFSZ, IORWF, MOVF
  iterate 7 refine ⟨fun h => decodeWord_of_encode_eq (opcode_append_dest_file (opcode_of_masked h rfl)), ?_⟩
  -- MOVWF
  refine ⟨fun h => decodeWord_of_encode_eq (opcode_append_field (opcode_of_masked h rfl)), ?_⟩
  -- RLF, RRF, SUBWF, SWAPF, XORWF
  iterate 5 refine ⟨fun h => decodeWord_of_encode_eq (opcode_append_dest_file (opcode_of_masked h rfl)), ?_⟩
  -- BCF, BSF, BTFSC, BTFSS, ADDLW
  iterate 5 refine ⟨fun h => decodeWord_of_encode_eq (opcode_append_fields (opcode_of_masked h rfl)), ?_⟩
  -- ANDLW, IORLW
  iterate 2 refine ⟨fun h => decodeWord_of_encode_eq (opcode_append_field (opcode_of_masked h rfl)), ?_⟩
  -- MOVLW, SUBLW
  iterate 2 refine ⟨fun h => decodeWord_of_encode_eq (opcode_append_fields (opcode_of_masked h rfl)), ?_⟩
  -- XORLW
  refine ⟨fun h => decodeWord_of_encode_eq (opcode_append_field (opcode_of_masked h rfl)), ?_⟩
  -- the undecodable class
  exact fun h => decodeWord_of_encode_eq (opcode_append_field (opcode_of_masked h rfl))

end Sys2Proof


/-! SUPPORT. The step and its phases 5 and 6 (spec 40_step_and_alu.md), and what `WriteDest` leaves: when a step
completes, what the PC update and the timer tick do, and the end of an instruction whose destination is a PC window
or STATUS. -/

namespace Sys2Proof.Machine

/-! ## Fetch and decode (R110) -/

section
variable {s : State}

theorem step_of_nextEvent_step (h : s.nextEvent = .step) : step s = runInstruction s.popInput :=
  congrArg (deliver · s.popInput) h

theorem runInstruction_of_progRead {w : ProgWord} (h : s.progRead s.pc = some w) :
    runInstruction s = exec (decodeWord w) s := by
  unfold runInstruction
  rw [h]

/-- The fetch of an address that does not exist (60_exceptions.md R201). -/
theorem runInstruction_of_outOfRange (h : 1023 < s.pc.toNat) :
    runInstruction s = .fault (.fetchOutOfRange s.pc) := by
  have hfetch : s.progRead s.pc = none := if_neg (Nat.not_lt.2 h)
  unfold runInstruction
  rw [hfetch]

theorem runInstruction_completes (h : s.pc.toNat < 1024) : ∃ t, runInstruction s = .next t := by
  have hfetch : s.progRead s.pc = some (listRead resetWord s.prog s.pc.toNat) := if_pos h
  exact ⟨_, (runInstruction_of_progRead hfetch).trans (exec_eq _ s)⟩

/-- Of the events only a `Step` can fault. -/
theorem step_completes (h : s.canStep) : ∃ t, step s = .next t := by
  unfold step
  unfold State.canStep at h
  cases he : s.nextEvent with
  | step => exact runInstruction_completes (h he)
  | pinChanged | wdtTick | reset | powerOnReset | progWrite | progReset => exact ⟨_, rfl⟩

end

/-- Settles O5: the word at PC is still there when the event is off the list, and it decodes to the instruction it
encodes. -/
theorem stepRunsDecodedInstruction : Obligations.StepRunsDecodedInstruction := by
  intro s
  refine ⟨fun hstep i hi hword => ?_, fun _ => rfl⟩
  have hfetch : s.popInput.progRead s.popInput.pc = some (encode i) := hword
  rw [step_of_nextEvent_step hstep, runInstruction_of_progRead hfetch, decodeWord_encode hi]
  rfl

/-- Settles O6: a `Step` with PC in program memory runs an instruction, which completes, and no other
event fetches. -/
theorem stepFaultsOnlyOnFetchOutOfRange : Obligations.StepFaultsOnlyOnFetchOutOfRange := by
  intro s
  refine ⟨fun ⟨hstep, hpc⟩ => ?_, fun h => step_completes fun hstep => ?_⟩
  · exact (step_of_nextEvent_step hstep).trans (runInstruction_of_outOfRange hpc)
  · exact Nat.lt_succ_of_le (Nat.not_lt.1 fun hpc => h ⟨hstep, hpc⟩)

/-! ## The end of a step (R114 to R117) -/

/-- `s` after the cycle accounting and the PC update of a non-branching instruction (R114, R115). -/
def State.advanced (s : State) (skip : Bool) (cycles : Nat) : State :=
  { s with pc := s.pc + (if skip then 2 else 1), cyc := s.cyc + cycles }

section
variable (s : State) (skip : Bool) (cycles : Nat)

/-- The PC update as the model writes it, a second increment for the skip. -/
theorem State.advanced_eq :
    ({ s with cyc := s.cyc + cycles, pc := s.pc + 1 + (if skip then 1 else 0) } : State)
      = s.advanced skip cycles := by
  have hpc : s.pc + 1 + (if skip then 1 else 0) = s.pc + (if skip then 2 else 1) := by
    cases skip
    · exact BitVec.add_zero _
    · exact BitVec.add_assoc s.pc 1 1
  rw [hpc]
  rfl

theorem interruptsEnabled_iff (enable : Nat) : s.interruptsEnabled enable = true ↔ Enabled s enable := by
  unfold State.interruptsEnabled Enabled
  rw [Bool.and_eq_true, and_comm]

/-- TMR0 counts, on an overflow from 0xFF to 0 (60_exceptions.md R212). -/
theorem State.tmr0_tmr0Increment : s.tmr0Increment.cell tmr0Addr = s.cell tmr0Addr + 1 := by
  rcases s.tmr0Increment_cases with h | ⟨hv, -, h⟩ <;> rw [h]
  · simp
  · rw [State.cell_takeInterrupt_ne _ _ (by decide), hv]
    simp

theorem tmr0Increment_taken (h : s.cell tmr0Addr = 0xFF ∧ Enabled s t0ieBit) :
    InterruptTaken (s.setCell tmr0Addr 0) s.tmr0Increment t0ifBit := by
  obtain ⟨hv, he⟩ := h
  rw [s.tmr0Increment_overflow hv ((interruptsEnabled_iff s _).2 he)]
  exact interruptTaken_takeInterrupt _ _

theorem State.tmr0Increment_notTaken (h : ¬(s.cell tmr0Addr = 0xFF ∧ Enabled s t0ieBit)) :
    s.tmr0Increment = s.setCell tmr0Addr (s.cell tmr0Addr + 1) := by
  rw [← interruptsEnabled_iff, not_and_or, Bool.not_eq_true] at h
  exact s.tmr0Increment_count h

end

/-- Settles O29: with T0CS clear the state with CYC and PC advanced has its TMR0 incremented. -/
theorem retireAdvancesAndTicks : Obligations.RetireAdvancesAndTicks := by
  intro s skip cycles
  refine ⟨fun h => ?_, fun h => ?_⟩
  · rw [s.retire_counter skip cycles h, s.advanced_eq]
    exact ⟨rfl, rfl, rfl, SameStack.refl s, SameHidden.refl s, fun _ => rfl⟩
  · rw [s.retire_internal skip cycles h, s.advanced_eq]
    refine ⟨State.tmr0_tmr0Increment _, tmr0Increment_taken (s.advanced skip cycles), fun hn => ?_⟩
    have hcount := (s.advanced skip cycles).tmr0Increment_notTaken hn
    rw [hcount]
    exact ⟨rfl, rfl, rfl, SameStack.refl s, SameHidden.refl s, fun q hq => State.cell_setCell_ne _ _ hq⟩

/-- The timer tick at the end of a non-branching step takes the Timer0 interrupt (R116, 60_exceptions.md R212). -/
def State.TickInterrupts (s : State) : Prop :=
  s.cellBit optionAddr t0csBit = false ∧ s.cell tmr0Addr = 0xFF ∧ Enabled s t0ieBit

theorem State.tickInterrupts_congr {s e : State} (h : ∀ q, q ≠ statusAddr → e.cell q = s.cell q) :
    e.TickInterrupts ↔ s.TickInterrupts := by
  simp only [State.TickInterrupts, Enabled, State.cellBit, h optionAddr (by decide), h tmr0Addr (by decide),
    h intconAddr (by decide)]

section
variable {s : State} (skip : Bool) (cycles : Nat)

theorem State.retire_pc_of_not_tickInterrupts (h : ¬s.TickInterrupts) :
    (s.retire skip cycles).pc = s.pc + (if skip then 2 else 1) := by
  obtain ⟨hcounter, hinternal⟩ := retireAdvancesAndTicks s skip cycles
  cases hcs : s.cellBit optionAddr t0csBit with
  | true =>
    obtain ⟨-, hpc, -⟩ := hcounter hcs
    exact hpc
  | false =>
    obtain ⟨-, -, hcount⟩ := hinternal hcs
    obtain ⟨-, hpc, -⟩ := hcount fun hov => h ⟨hcs, hov⟩
    exact hpc

theorem State.retire_of_tickInterrupts (h : s.TickInterrupts) :
    (s.retire skip cycles).pc = 4 ∧ Pushed s (s.retire skip cycles) (s.pc + (if skip then 2 else 1)) := by
  obtain ⟨hcs, hov⟩ := h
  obtain ⟨-, hinternal⟩ := retireAdvancesAndTicks s skip cycles
  obtain ⟨-, htaken, -⟩ := hinternal hcs
  obtain ⟨-, hpc, -, hpushed, -⟩ := htaken hov
  exact ⟨hpc, hpushed⟩

end

/-- Settles O30: a branching instruction counts its cycles and ends, and only RETFIE writes a cell, GIE's. -/
theorem branchesNeverTickTimer : Obligations.BranchesNeverTickTimer := by
  intro i s h
  cases i with
  | goto | call | ret | retlw => exact ⟨_, rfl, rfl, rfl, fun _ _ _ => rfl⟩
  | retfie =>
    refine ⟨s.returnFromInterrupt.retireBranch, rfl, ?_, rfl, fun j hj hne => ?_⟩
    · exact s.popPc.cell_setCellBit_ne gieBit true (by decide)
    · exact (s.popPc.cellBit_setCellBit intconAddr gieBit true intconAddr j hj).trans
        (if_neg fun hgie => hne rfl hgie.2)
  | _ => cases h

/-! ## WriteDest (R118) -/

section
variable (s : State)

theorem toNat_pc_append (a : BitVec 5) (b : Byte) : (a ++ b : PcWord).toNat = a.toNat * 256 + b.toNat := by
  have h := BitVec.toNat_append a b
  rwa [← Nat.shiftLeft_add_eq_or_of_lt b.isLt, Nat.shiftLeft_eq] at h

/-- PC after a write of PCL: its low byte is replaced (20_memory.md R65). -/
theorem State.toNat_pc_write_pcl (v : Byte) :
    (s.cellWrite pclAddr v).pc.toNat = s.pc.toNat / 256 * 256 + v.toNat := by
  have hpc := s.pc.isLt
  rw [State.cellWrite_pcl, toNat_pc_append, BitVec.extractLsb'_toNat, Nat.shiftRight_eq_div_pow]
  omega

/-- PC after a write of PCLATH: its high five bits are replaced (20_memory.md R65). -/
theorem State.toNat_pc_write_pclath (v : Byte) :
    (s.cellWrite pclathAddr v).pc.toNat = v.toNat % 32 * 256 + s.pc.toNat % 256 := by
  rw [State.cellWrite_pclath, toNat_pc_append, BitVec.extractLsb'_toNat, BitVec.extractLsb'_toNat]
  rfl

/-- PC after a write of one of its windows. -/
theorem State.pc_write_window {p : Byte} (hp : p = pclAddr ∨ p = pclathAddr) (v : Byte) :
    (s.cellWrite p v).pc = BitVec.ofNat 13 (if p = pclAddr then s.pc.toNat / 256 * 256 + v.toNat
      else v.toNat % 32 * 256 + s.pc.toNat % 256) := by
  have hval : (s.cellWrite p v).pc.toNat = if p = pclAddr then s.pc.toNat / 256 * 256 + v.toNat
      else v.toNat % 32 * 256 + s.pc.toNat % 256 := by
    rcases hp with rfl | rfl
    · exact s.toNat_pc_write_pcl v
    · exact s.toNat_pc_write_pclath v
  rw [← hval, BitVec.ofNat_toNat, BitVec.setWidth_eq]

end

/-- Settles O36: a write of W leaves every cell, and a write of the cell the file register resolves to leaves every
other cell and W. -/
theorem writeDestStoresAndKeepsTheRest : Obligations.WriteDestStoresAndKeepsTheRest := by
  intro s d f v
  cases d with
  | w =>
    refine ⟨rfl, fun _ => rfl, ?pcl, ?pclath, fun _ => rfl, rfl, SameStack.refl s, SameHidden.refl s⟩
    case pcl | pclath => rintro ⟨hd, -⟩; cases hd
  | f =>
    simp only [State.writeDest_f, reduceCtorEq, if_false, true_and]
    refine ⟨s.cellWrite_w _ v, s.cellRead_cellWrite _ v, fun hp => ?_, fun hp => ?_, fun hp => ?_,
      s.cellWrite_cyc _ v, sameStack_cellWrite s _ v, sameHidden_cellWrite s _ v⟩
    · rw [hp, s.toNat_pc_write_pcl]
    · rw [hp, s.toNat_pc_write_pclath]
    · obtain ⟨h2, hA⟩ := not_or.1 hp
      exact s.cellWrite_pc v h2 hA

/-! ## PC and STATUS as destinations (R115, R119) -/

section
variable (s : State) {bits : List (Nat × Bool)}

/-- With no bit listed twice, each listed bit of STATUS holds its value and the others are kept. -/
theorem State.cellBit_writeBits (hbits : (bits.map Prod.fst).Nodup) {j : Nat} (hj : j < 8) :
    (s.writeBits bits).cellBit statusAddr j = (bits.lookup j).getD (s.cellBit statusAddr j) := by
  induction bits generalizing s with
  | nil => rfl
  | cons b bits ih =>
    obtain ⟨k, v⟩ := b
    obtain ⟨hk, hbits⟩ := List.nodup_cons.1 hbits
    show ((s.setCellBit statusAddr k v).writeBits bits).cellBit statusAddr j = _
    by_cases hjk : j = k
    · subst hjk
      rw [State.cellBit_writeBits_of_notMem _ _ hj hk, State.cellBit_setCellBit _ _ _ _ _ _ hj,
        if_pos ⟨rfl, rfl⟩, List.lookup_cons_self]
      rfl
    · rw [ih _ hbits, State.cellBit_setCellBit _ _ _ _ _ _ hj, if_neg fun h => hjk h.2, List.lookup_cons,
        beq_false_of_ne hjk]

theorem nodup_flagsOf (i : Instr) : ((flagsOf i s).map Prod.fst).Nodup := by
  rw [map_fst_flagsOf]
  cases i <;> simp [statusBits]

/-- A window write and flags after it leave every cell but STATUS. -/
theorem State.cell_writeBits_cellWrite_window {p q : Byte} (hp : p = pclAddr ∨ p = pclathAddr) (v : Byte)
    (hq : q ≠ statusAddr) : ((s.cellWrite p v).writeBits bits).cell q = s.cell q := by
  rw [State.cell_writeBits _ _ hq, State.cell_cellWrite, if_neg fun h => hp.elim h.1 h.2.1]

theorem State.writeBits_pc (bits : List (Nat × Bool)) : (s.writeBits bits).pc = s.pc := by
  obtain ⟨-, hpc, -⟩ := s.writeBits_keeps bits
  exact hpc

theorem sameStack_writeBits (bits : List (Nat × Bool)) : SameStack s (s.writeBits bits) := by
  obtain ⟨-, -, -, hstk, hsp, -⟩ := s.writeBits_keeps bits
  exact ⟨hsp, fun k => congrArg (·[k]) hstk⟩

theorem SameStack.trans {s e t : State} (h : SameStack s e) (h' : SameStack e t) : SameStack s t :=
  ⟨h'.1.trans h.1, fun k => (h'.2 k).trans (h.2 k)⟩

theorem Pushed.of_sameStack {s e t : State} {v : PcWord} (hp : Pushed e t v) (h : SameStack s e) : Pushed s t v := by
  obtain ⟨hsp, hpeek⟩ := h
  unfold Pushed at hp ⊢
  simpa only [hsp, hpeek] using hp

end

/-- Settles O59: the result is stored in STATUS, then each flag's bit is written, and phases 5 and 6 leave STATUS. -/
theorem statusDestinationFlagsLast : Obligations.StatusDestinationFlagsLast := by
  intro i s hd
  let stored := s.cellWrite statusAddr (resultOf i s)
  have hstored : stored.cell statusAddr = resultOf i s := by
    rw [State.cell_cellWrite, if_pos (by decide)]
  refine ⟨_, exec_of_destCell hd, fun j hj => ?_⟩
  calc ((stored.writeBits (flagsOf i s)).retire (skips i s) (skipCycles (skips i s))).cellBit statusAddr j
      = (stored.writeBits (flagsOf i s)).cellBit statusAddr j :=
        congrArg (·.getLsbD j) (State.cell_retire_ne _ _ _ (by decide) (by decide))
    _ = ((flagsOf i s).lookup j).getD (stored.cellBit statusAddr j) :=
        State.cellBit_writeBits _ (nodup_flagsOf s i) hj
    _ = ((flagsOf i s).lookup j).getD ((resultOf i s).getLsbD j) := by rw [State.cellBit, hstored]

/-- Settles O58: the write replaces a part of PC, the flags leave PC and what enables the interrupt, and the PC update
adds 1 or 2 before the timer tick. -/
theorem pclWriteContinuesPlusOne : Obligations.PclWriteContinuesPlusOne := by
  intro i s p hd hp r written next taken
  refine ⟨_, exec_of_destCell hd, ?_⟩
  let e := (s.cellWrite p (resultOf i s)).writeBits (flagsOf i s)
  have hpc : e.pc = BitVec.ofNat 13 written :=
    (State.writeBits_pc ..).trans (s.pc_write_window hp _)
  have hnext : e.pc + (if skips i s then 2 else 1) = next := by
    simp only [hpc, next, BitVec.ofNat_add, apply_ite (BitVec.ofNat 13)]
    rfl
  have hstack : SameStack s e := (sameStack_cellWrite ..).trans (sameStack_writeBits ..)
  have htaken : e.TickInterrupts ↔ taken :=
    State.tickInterrupts_congr fun _ => s.cell_writeBits_cellWrite_window hp _
  refine ⟨fun h => ?_, fun h => ?_⟩
  · exact (State.retire_pc_of_not_tickInterrupts _ _ (mt htaken.1 h)).trans hnext
  · obtain ⟨hvector, hpushed⟩ := State.retire_of_tickInterrupts (skips i s) (skipCycles (skips i s)) (htaken.2 h)
    exact ⟨hvector, hnext ▸ hpushed.of_sameStack hstack⟩

end Sys2Proof.Machine


/-! SUPPORT. Control transfer (spec 41_control_transfer.md): each branching instruction leaves a push, a pop or a
jump with two cycles counted, so what it does to the return stack is what `push` and `popState` do. -/

namespace Sys2Proof.Machine

/-! ## Encodings -/

/-- Settles O1: each word is the encoding of its instruction. -/
theorem wordsOfTheSpecDecode : Obligations.WordsOfTheSpecDecode := by
  refine ⟨?goto, ?call, ?ret, ?retlw, ?retfie, ?sleep, ?clrwdt, ?nop, ?addwf, ?andwf, ?movwf, ?bsf, ?btfsc, ?movlw,
    ?sublw, ?undecodable⟩
  all_goals exact decodeWord_of_encode_eq rfl

/-! ## Jumps -/

/-- A jump lands on its literal, with PC[12:11] = 0 (R140, D10). -/
theorem toNat_jumpTarget (k : BitVec 11) : (jumpTarget k).toNat = k.toNat :=
  BitVec.toNat_setWidth_of_le (by decide)

theorem exec_goto (s : State) (k : BitVec 11) :
    exec (.goto k) s = .next ({ s with pc := jumpTarget k } : State).retireBranch := rfl

/-- Settles O22: GOTO writes PC alone. -/
theorem gotoResult : Obligations.GotoResult := fun k s =>
  ⟨decodeWord_of_encode_eq rfl, ({ s with pc := jumpTarget k } : State).retireBranch, exec_goto s k,
    toNat_jumpTarget k, rfl, rfl, SameStack.refl s, SameHidden.refl s, fun _ => rfl⟩

/-! ## Calls and returns -/

/-- `s` after a CALL of `k` (R141). -/
def State.afterCall (s : State) (k : BitVec 11) : State :=
  ({ s.push (s.pc + 1) with pc := jumpTarget k } : State).retireBranch

section
variable (s : State)

theorem exec_call (k : BitVec 11) : exec (.call k) s = .next (s.afterCall k) := rfl

theorem exec_ret : exec .ret s = .next s.popPc.retireBranch := rfl

theorem exec_retlw (x : BitVec 2) (k : BitVec 8) : exec (.retlw x k) s = .next (s.setW k).popPc.retireBranch := rfl

theorem exec_retfie : exec .retfie s = .next s.returnFromInterrupt.retireBranch := rfl

/-- The address a CALL pushes is the one the next pop returns. -/
theorem State.popValue_afterCall (k : BitVec 11) : (s.afterCall k).popValue = s.pc + 1 := s.popValue_push (s.pc + 1)

/-- A pop moves the stack pointer back to where it was before a CALL. -/
theorem State.sp_popPc_afterCall (k : BitVec 11) : (s.afterCall k).popPc.sp = s.sp := add_sub_cancel_right s.sp 1

/-- The bits of INTCON after a return from an interrupt: GIE is 1, the others are kept (R144). -/
theorem State.intcon_returnFromInterrupt {j : Nat} (hj : j < 8) :
    s.returnFromInterrupt.cellBit intconAddr j = if j = gieBit then true else s.cellBit intconAddr j :=
  (s.popPc.cellBit_setCellBit intconAddr gieBit true intconAddr j hj).trans
    (if_congr (and_iff_right rfl) rfl rfl)

end

/-- Settles O23: CALL pushes the address after it and writes PC. -/
theorem callResult : Obligations.CallResult := fun k s =>
  ⟨decodeWord_of_encode_eq rfl, s.afterCall k, exec_call s k, toNat_jumpTarget k, rfl, rfl, pushed_push s (s.pc + 1),
    SameHidden.refl s, fun _ => rfl⟩

/-- Settles O24: both returns pop PC, RETLW with its literal already in W, which the stack does not depend on. -/
theorem returnResults : Obligations.ReturnResults := by
  intro x k s
  refine ⟨decodeWord_of_encode_eq rfl, decodeWord_of_encode_eq rfl, ⟨_, exec_ret s, ?ret⟩,
    ⟨_, exec_retlw s x k, ?retlw⟩⟩
  case ret | retlw => exact ⟨popped_popState s, rfl, rfl, SameHidden.refl s, fun _ => rfl⟩

/-- Settles O25: RETFIE pops PC and sets one bit of INTCON. -/
theorem retfieResult : Obligations.RetfieResult := fun s =>
  ⟨decodeWord_of_encode_eq rfl, s.returnFromInterrupt.retireBranch, exec_retfie s, popped_popState s, rfl, rfl,
    SameHidden.refl s, fun _ hq => s.popPc.cell_setCellBit_ne gieBit true hq, fun _ => s.intcon_returnFromInterrupt⟩

/-- Settles O41: the RETURN pops what the CALL pushed. -/
theorem returnUndoesCall : Obligations.ReturnUndoesCall := fun s k =>
  ⟨s.afterCall k, (s.afterCall k).popPc.retireBranch, exec_call s k, exec_ret (s.afterCall k), s.popValue_afterCall k,
    s.sp_popPc_afterCall k, rfl, fun _ => rfl⟩

end Sys2Proof.Machine


/-! SUPPORT. The system family (spec 42_system.md): NOP, SLEEP and the undecodable word leave the state to phases 5
and 6, and CLRWDT clears WDT and writes two bits of STATUS before them. -/

namespace Sys2Proof.Machine

/-! ## The effects -/

section
variable (s : State)

/-- STATUS bits written with none listed twice change those bits alone. -/
theorem sameButBits_writeBits {bits : List (Nat × Bool)} (hbits : (bits.map Prod.fst).Nodup) :
    SameButBits statusAddr s (s.writeBits bits) bits := by
  obtain ⟨hw, hpc, hcyc, -, -, hhidden⟩ := s.writeBits_keeps bits
  exact ⟨hw, hpc, hcyc, sameStack_writeBits s bits, hhidden, fun _ hq => s.cell_writeBits bits hq,
    fun _ hj => s.cellBit_writeBits hbits hj⟩

theorem exec_nop (x : BitVec 7) : exec (.nop x) s = .next (s.retire false 1) := rfl

/-- The clearing of WDT and the two writes of STATUS commute (R151). -/
theorem exec_clrwdt : exec .clrwdt s =
    .next ((({ s with wdt := 0 } : State).writeBits [(toBit, true), (pdBit, true)]).retire false 1) := rfl

theorem exec_sleep : exec .sleep s = .next (s.retire false 2) := rfl

theorem exec_undecodable (x : BitVec 8) : exec (.undecodable x) s = .next (s.retire false 1) := rfl

end

/-! ## The results -/

/-- Settles O27: !TO and !PD are different bits of STATUS, and writing them leaves everything else. -/
theorem clrwdtResult : Obligations.ClrwdtResult := fun s =>
  ⟨decodeWord_of_encode_eq rfl, _, exec_clrwdt s, sameButBits_writeBits { s with wdt := 0 } (by decide)⟩

/-- The NOP class by its low bits (30_encoding.md R100). -/
theorem wf_nop_iff (x : BitVec 7) :
    (Instr.nop x).wf = true ↔ x ≠ 0x08 ∧ x ≠ 0x09 ∧ x ≠ 0x63 ∧ x ≠ 0x64 := by
  simp [Instr.wf, nopBits, and_assoc]

/-- Settles O26: a word of the NOP class encodes a NOP, and neither instruction has an Execute phase. -/
theorem nopSleepResults : Obligations.NopSleepResults := fun x s =>
  ⟨fun hx => decodeWord_of_encode_eq rfl ((wf_nop_iff x).2 hx), decodeWord_of_encode_eq rfl, exec_nop s x,
    exec_sleep s⟩

/-- Settles O28: every word of the class encodes the undecodable instruction, which has no Execute phase. -/
theorem undecodableResult : Obligations.UndecodableResult := fun x s =>
  ⟨decodeWord_of_encode_eq rfl, exec_undecodable s x⟩

end Sys2Proof.Machine


/-! SUPPORT. The byte-oriented family (spec 43_byte_oriented.md). An instruction with a destination writes its result
there, then its flags, and phases 5 and 6 follow; each result statement is this and the meaning of its flags. -/

namespace Sys2Proof.Machine

/-! ## Instructions with a destination (R118) -/

/-- `i` is no branching instruction, and its destination is the one `d` and `f` name (W with any `f`). -/
def HasDest (i : Instr) (d : Dest) (f : BitVec 7) : Prop :=
  isBranching i = false ∧ fileDest i = Dest.fileOf d f ∧ writesW i = (d == .w)

section
variable {s : State} {i : Instr} {d : Dest} {f : BitVec 7}

theorem State.storeResult_of_hasDest (h : HasDest i d f) : s.storeResult i = s.writeDest d f (resultOf i s) := by
  obtain ⟨-, hfile, hw⟩ := h
  unfold State.storeResult destCell
  rw [hfile, hw]
  cases d <;> rfl

/-- Only a branching instruction or one without a destination does more than write its result and its flags. -/
theorem ownEffect_of_hasDest (h : HasDest i d f) (t : State) : t.ownEffect i = t := by
  obtain ⟨hbranch, hfile, hw⟩ := h
  cases i with
  | goto | call | ret | retlw | retfie => cases hbranch
  | clrwdt => cases d <;> contradiction
  | _ => rfl

theorem retireCycles_of_hasDest (h : HasDest i d f) : retireCycles i s = skipCycles (skips i s) := by
  obtain ⟨-, hfile, hw⟩ := h
  refine if_neg ?_
  rintro rfl
  cases d <;> contradiction

/-- What an instruction with a destination does, W included. -/
theorem exec_of_hasDest (h : HasDest i d f) :
    exec i s = .next (((s.writeDest d f (resultOf i s)).writeBits (flagsOf i s)).retire (skips i s)
      (skipCycles (skips i s))) := by
  rw [exec_eq, State.afterInstr, h.1, if_neg Bool.false_ne_true, State.executed, ownEffect_of_hasDest h,
    State.storeResult_of_hasDest h, retireCycles_of_hasDest h]

/-- With no skip: the result, then the flags and no other bit, then one cycle and PC + 1. -/
theorem exec_result {bits : List (Nat × Bool)} (h : HasDest i d f) (hskip : skips i s = false)
    (hflags : flagsOf i s = bits) :
    ∃ e, exec i s = .next (e.retire false 1)
      ∧ SameButBits statusAddr (s.writeDest d f (resultOf i s)) e bits := by
  subst hflags
  refine ⟨_, ?_, sameButBits_writeBits _ (nodup_flagsOf s i)⟩
  rw [exec_of_hasDest h, hskip]
  rfl

variable {P : Prop} [Decidable P]

/-- With Z as the only flag, where `P` says that the result is 0. -/
theorem exec_result_z (h : HasDest i d f) (hskip : skips i s = false)
    (hflags : flagsOf i s = [(zBit, resultOf i s == 0)]) (hzero : resultOf i s = 0 ↔ P) :
    ∃ e, exec i s = .next (e.retire false 1)
      ∧ SameButBits statusAddr (s.writeDest d f (resultOf i s)) e [(zBit, decide P)] := by
  refine exec_result h hskip (hflags.trans ?_)
  rw [Bool.beq_eq_decide_eq, decide_eq_decide.2 hzero]

/-- With a skip on a zero result and no flag, where `P` says that the result is 0. -/
theorem exec_result_skip (h : HasDest i d f) (hskip : skips i s = (resultOf i s == 0)) (hflags : flagsOf i s = [])
    (hzero : resultOf i s = 0 ↔ P) :
    exec i s = .next (if P then (s.writeDest d f 0).retire true 2
      else (s.writeDest d f (resultOf i s)).retire false 1) := by
  rw [exec_of_hasDest h, hskip, hflags]
  by_cases hP : P
  · rw [if_pos hP, hzero.2 hP]
    rfl
  · rw [if_neg hP, beq_false_of_ne (mt hzero.1 hP)]
    rfl

end

/-! ## Flags of a sum and of a difference (R120, R121) -/

theorem add_eq_zero_iff_toNat (a b : Byte) : a + b = 0 ↔ (a.toNat + b.toNat) % 256 = 0 := by
  rw [← BitVec.toNat_inj, BitVec.toNat_add]
  rfl

theorem addFlags_eq (a b : Byte) : addFlags a b = [(cBit, decide (256 ≤ a.toNat + b.toNat)),
    (dcBit, decide (16 ≤ a.toNat % 16 + b.toNat % 16)), (zBit, decide ((a.toNat + b.toNat) % 256 = 0))] := by
  rw [addFlags, Bool.beq_eq_decide_eq, decide_eq_decide.2 (add_eq_zero_iff_toNat a b)]

theorem subFlags_eq (a b : Byte) : subFlags a b = [(cBit, decide (b.toNat ≤ a.toNat)),
    (dcBit, decide (b.toNat % 16 ≠ 0 ∧ b.toNat % 16 ≤ a.toNat % 16)), (zBit, decide (a = b))] := by
  rw [subFlags, Bool.beq_eq_decide_eq]

/-! ## Bits of a byte in two parts

The parts' widths add up to 8 only by computation, which keeps `simp` from rewriting with the library's lemma in the
results themselves. -/

section
variable {m n : Nat} (x : BitVec m) (y : BitVec n)

theorem getLsbD_append_low {j : Nat} (hj : j < n) : (x ++ y).getLsbD j = y.getLsbD j := by
  rw [BitVec.getLsbD_append, if_pos hj]

theorem getLsbD_append_high (j : Nat) : (x ++ y).getLsbD (j + n) = x.getLsbD j := by
  rw [BitVec.getLsbD_append, if_neg (by omega), Nat.add_sub_cancel]

end

/-! ## The results -/

/-- Settles O10: C, DC and Z are those of the 8-bit sum and difference. -/
theorem addwfSubwfResults : Obligations.AddwfSubwfResults := fun d f s =>
  ⟨decodeWord_of_encode_eq rfl, decodeWord_of_encode_eq rfl,
    exec_result (i := .addwf d f) ⟨rfl, rfl, rfl⟩ rfl (addFlags_eq s.w (s.readFile f)),
    exec_result (i := .subwf d f) ⟨rfl, rfl, rfl⟩ rfl (subFlags_eq (s.readFile f) s.w)⟩

/-- Settles O11: the results are 0 for disjoint, for two zero and for equal operands. -/
theorem logicFileResults : Obligations.LogicFileResults := fun d f _ =>
  ⟨decodeWord_of_encode_eq rfl, decodeWord_of_encode_eq rfl, decodeWord_of_encode_eq rfl,
    exec_result_z (i := .andwf d f) ⟨rfl, rfl, rfl⟩ rfl rfl Iff.rfl,
    exec_result_z (i := .iorwf d f) ⟨rfl, rfl, rfl⟩ rfl rfl BitVec.or_eq_zero_iff,
    exec_result_z (i := .xorwf d f) ⟨rfl, rfl, rfl⟩ rfl rfl BitVec.xor_eq_zero_iff⟩

/-- Settles O12: each result is 0 for one value of the file register. -/
theorem comfDecfIncfMovfResults : Obligations.ComfDecfIncfMovfResults := fun d f _ =>
  ⟨decodeWord_of_encode_eq rfl, decodeWord_of_encode_eq rfl, decodeWord_of_encode_eq rfl, decodeWord_of_encode_eq rfl,
    exec_result_z (i := .comf d f) ⟨rfl, rfl, rfl⟩ rfl rfl BitVec.not_eq_comm,
    exec_result_z (i := .decf d f) ⟨rfl, rfl, rfl⟩ rfl rfl sub_eq_zero,
    exec_result_z (i := .incf d f) ⟨rfl, rfl, rfl⟩ rfl rfl add_eq_zero_iff_eq_neg,
    exec_result_z (i := .movf d f) ⟨rfl, rfl, rfl⟩ rfl rfl Iff.rfl⟩

/-- Settles O13: the result is 0 whatever the operands, and Z is 1. -/
theorem clearResults : Obligations.ClearResults := fun f x _ =>
  ⟨decodeWord_of_encode_eq rfl, decodeWord_of_encode_eq rfl,
    exec_result (i := .clrf f) (d := .f) ⟨rfl, rfl, rfl⟩ rfl rfl,
    exec_result (i := .clrw x) (d := .w) (f := x) ⟨rfl, rfl, rfl⟩ rfl rfl⟩

/-- Settles O14: the skip is taken on the one value of the file register that gives 0. -/
theorem decfszIncfszResults : Obligations.DecfszIncfszResults := fun d f _ =>
  ⟨decodeWord_of_encode_eq rfl, decodeWord_of_encode_eq rfl,
    exec_result_skip (i := .decfsz d f) ⟨rfl, rfl, rfl⟩ rfl rfl sub_eq_zero,
    exec_result_skip (i := .incfsz d f) ⟨rfl, rfl, rfl⟩ rfl rfl add_eq_zero_iff_eq_neg⟩

/-- Settles O15: with no flags the state after the destination is what phases 5 and 6 get, and the two nibbles of the
swap are those of the file register. -/
theorem movwfSwapfResults : Obligations.MovwfSwapfResults := by
  intro d f s
  refine ⟨decodeWord_of_encode_eq rfl, decodeWord_of_encode_eq rfl,
    exec_of_hasDest (i := .movwf f) (d := .f) ⟨rfl, rfl, rfl⟩, resultOf (.swapf d f) s,
    exec_of_hasDest (i := .swapf d f) ⟨rfl, rfl, rfl⟩, fun j hj => ⟨?low, ?high⟩⟩
  case low => exact (getLsbD_append_low _ _ hj).trans (by simp [hj, Nat.add_comm])
  case high => exact (getLsbD_append_high _ _ j).trans (by simp [hj])

/-- Settles O16: the rotated byte is seven bits of the file register beside the old C. -/
theorem rotateResults : Obligations.RotateResults := by
  intro d f s v c
  refine ⟨decodeWord_of_encode_eq rfl, decodeWord_of_encode_eq rfl, ?rlf, ?rrf⟩
  case rlf =>
    obtain ⟨e, hexec, hbits⟩ := exec_result (i := .rlf d f) (s := s) ⟨rfl, rfl, rfl⟩ rfl rfl
    refine ⟨resultOf (.rlf d f) s, e, hexec, hbits, ?_, fun j hj => ?_⟩
    · exact (getLsbD_append_low _ _ Nat.one_pos).trans (by simp [c])
    · exact (getLsbD_append_high _ _ j).trans (by simp [hj, v])
  case rrf =>
    obtain ⟨e, hexec, hbits⟩ := exec_result (i := .rrf d f) (s := s) ⟨rfl, rfl, rfl⟩ rfl rfl
    refine ⟨resultOf (.rrf d f) s, e, hexec, hbits, ?_, fun j hj => ?_⟩
    · exact (getLsbD_append_high _ _ 0).trans (by simp [c])
    · exact (getLsbD_append_low _ _ hj).trans (by simp [hj, v, Nat.add_comm])

end Sys2Proof.Machine


/-! SUPPORT. The bit-oriented family (spec 44_bit_oriented.md). BCF and BSF write back the byte read with one bit
replaced, and BTFSC and BTFSS leave the state to phases 5 and 6, which skip or not as the bit says. -/

namespace Sys2Proof.Machine

section
variable (b : BitVec 3) (f : BitVec 7) (s : State)

/-! ## Bit writes (R180, R181) -/

/-- The bit is 1 after BSF and 0 after BCF. -/
theorem exec_bitWrite (v : Bool) : exec (if v then .bsf b f else .bcf b f) s =
    .next ((s.writeDest .f f (withBit (s.readFile f) b.toNat v)).retire false 1) := by
  cases v <;> rfl

/-! ## Bit tests (R182, R183) -/

/-- A skip takes a second cycle (R114). -/
theorem finishSkip_eq (skip : Bool) :
    finishSkip skip s = .next (if skip = true then s.retire true 2 else s.retire false 1) := by
  cases skip <;> rfl

theorem exec_btfsc : exec (.btfsc b f) s = finishSkip (!(s.readFile f).getLsbD b.toNat) s := rfl

theorem exec_btfss : exec (.btfss b f) s = finishSkip ((s.readFile f).getLsbD b.toNat) s := rfl

end

/-! ## The results -/

/-- Settles O17: the byte written is the one read with bit `b` replaced. -/
theorem bitClearSetResults : Obligations.BitClearSetResults := fun b f s =>
  ⟨decodeWord_of_encode_eq rfl, decodeWord_of_encode_eq rfl, fun v =>
    ⟨withBit (s.readFile f) b.toNat v, exec_bitWrite b f s v, fun j => getLsbD_withBit _ _ j v⟩⟩

/-- Settles O18: BTFSS skips on the bit, and BTFSC on its negation. -/
theorem bitTestResults : Obligations.BitTestResults := by
  intro b f s v
  refine ⟨decodeWord_of_encode_eq rfl, decodeWord_of_encode_eq rfl, ?btfsc, ?btfss⟩
  case btfsc => simp only [exec_btfsc, finishSkip_eq, Bool.not_eq_true', v]
  case btfss => rw [exec_btfss, finishSkip_eq]

end Sys2Proof.Machine


/-! SUPPORT. The literal family (spec 45_literal.md). Its instructions have W as their destination, so they are those
with `HasDest` at `.w`, where the file register (0 below) plays no part. -/

namespace Sys2Proof.Machine

/-! ## The results -/

/-- Settles O19: C, DC and Z are those of the 8-bit sum of W and the literal, and of the literal minus W. -/
theorem addlwSublwResults : Obligations.AddlwSublwResults := fun x k s =>
  ⟨decodeWord_of_encode_eq rfl, decodeWord_of_encode_eq rfl,
    exec_result (i := .addlw x k) (d := .w) (f := 0) ⟨rfl, rfl, rfl⟩ rfl (addFlags_eq s.w k),
    exec_result (i := .sublw x k) (d := .w) (f := 0) ⟨rfl, rfl, rfl⟩ rfl (subFlags_eq k s.w)⟩

/-- Settles O20: the results are 0 for W and literal disjoint, both zero, and equal. -/
theorem logicLiteralResults : Obligations.LogicLiteralResults := fun k _ =>
  ⟨decodeWord_of_encode_eq rfl, decodeWord_of_encode_eq rfl, decodeWord_of_encode_eq rfl,
    exec_result_z (i := .andlw k) (d := .w) (f := 0) ⟨rfl, rfl, rfl⟩ rfl rfl Iff.rfl,
    exec_result_z (i := .iorlw k) (d := .w) (f := 0) ⟨rfl, rfl, rfl⟩ rfl rfl BitVec.or_eq_zero_iff,
    exec_result_z (i := .xorlw k) (d := .w) (f := 0) ⟨rfl, rfl, rfl⟩ rfl rfl
      (BitVec.xor_eq_zero_iff.trans eq_comm)⟩

/-- Settles O21: with no flag, phases 5 and 6 get the state with the literal in W. -/
theorem movlwResult : Obligations.MovlwResult := fun x k _ =>
  ⟨decodeWord_of_encode_eq rfl, exec_of_hasDest (i := .movlw x k) (d := .w) (f := 0) ⟨rfl, rfl, rfl⟩⟩

end Sys2Proof.Machine


/-! SUPPORT. The events outside an instruction (spec 60_exceptions.md): Timer0, the prescaler, the watchdog, the pin
interrupts and the return from them, a write of INTCON, and inspection by bank. -/

namespace Sys2Proof.Machine

/-! ## Every instruction (R200) -/

/-- Settles O7: the phases of an instruction end in a next state. -/
theorem everyInstructionCompletes : Obligations.EveryInstructionCompletes := fun i s =>
  ⟨s.afterInstr i, exec_eq i s⟩

/-! ## Timer0 and the prescaler (R212, R214) -/

/-- Settles O42: TMR0 counts in both cases, and with no interrupt taken no other cell changes. -/
theorem tmr0IncrementCountsAndInterrupts : Obligations.Tmr0IncrementCountsAndInterrupts := by
  intro s
  refine ⟨?counts, tmr0Increment_taken s, fun h => ?_⟩
  case counts =>
    rw [State.tmr0_tmr0Increment, BitVec.toNat_add]
    rfl
  rw [s.tmr0Increment_notTaken h]
  exact ⟨rfl, rfl, rfl, SameStack.refl s, SameHidden.refl s, fun _ hq => s.cell_setCell_ne _ hq⟩

section
variable (s : State)

theorem State.prescalerThreshold_eq : s.prescalerThreshold =
    if s.cellBit optionAddr psaBit = true then 2 ^ ((s.cell optionAddr).toNat % 8)
    else 2 * 2 ^ ((s.cell optionAddr).toNat % 8) := by
  rw [← Nat.pow_succ']
  rfl

/-- No threshold is above the range of PRE. -/
theorem State.prescalerThreshold_le : s.prescalerThreshold ≤ 256 := by
  have hps : s.prescalerRate < 8 := Nat.mod_lt _ (by decide)
  unfold State.prescalerThreshold
  show _ ≤ 2 ^ 8
  split
  · exact Nat.pow_le_pow_right Nat.two_pos hps.le
  · exact Nat.pow_le_pow_right Nat.two_pos hps

end

/-- Settles O43: a count below the threshold is below 256, so PRE does not wrap. -/
theorem prescalerForwardsAtThreshold : Obligations.PrescalerForwardsAtThreshold := by
  intro s ps psa thr
  have hthr : s.prescalerThreshold = thr := s.prescalerThreshold_eq
  rw [← hthr]
  refine ⟨fun h => ?below, fun h => ⟨fun hpsa => ?watchdog, fun hpsa => ?timer⟩⟩
  case below =>
    have hwidth : s.pre.toNat + 1 < 256 := h.trans_le s.prescalerThreshold_le
    rw [s.prescalerTick_count h]
    exact ⟨BitVec.toNat_add_of_lt hwidth, rfl⟩
  case watchdog => rw [s.prescalerTick_forward h, if_pos hpsa]
  case timer => rw [s.prescalerTick_forward h, if_neg (ne_true_of_eq_false hpsa)]

/-! ## The watchdog (R216, R220) -/

/-- The watchdog reset (70_reset_and_hazards.md R254). -/
def State.watchdogReset (s : State) : State := s.softReset.writeBits [(toBit, false), (pdBit, true)]

section
variable {s : State}

theorem wdt_succ_eq_limit_iff (x : Byte) : x + 1 = wdtLimit ↔ x.toNat = 127 := by
  rw [← eq_sub_iff_add_eq, ← BitVec.toNat_inj]
  rfl

theorem State.wdtIncrement_of_ne (h : s.wdt.toNat ≠ 127) : s.wdtIncrement = { s with wdt := s.wdt + 1 } :=
  s.wdtIncrement_count (mt (wdt_succ_eq_limit_iff _).1 h)

theorem State.wdtIncrement_of_eq (h : s.wdt.toNat = 127) : s.wdtIncrement = s.watchdogReset :=
  s.wdtIncrement_reset ((wdt_succ_eq_limit_iff _).2 h)

variable (s)

theorem sameButBits_watchdogReset :
    SameButBits statusAddr s.softReset s.watchdogReset [(toBit, false), (pdBit, true)] :=
  sameButBits_writeBits s.softReset (by decide)

/-- STATUS after the watchdog reset: C, DC and Z kept, !TO 0, !PD 1, the rest 0. -/
theorem State.status_watchdogReset :
    s.watchdogReset.cell statusAddr = (s.cell statusAddr &&& 0x07) ||| 0x08 := by
  have hbits : ∀ v : Byte,
      withBit (withBit ((v &&& 0x07#8) ||| 0x18#8) toBit false) pdBit true = (v &&& 0x07) ||| 0x08 := by decide
  have hreset : s.softReset.cell statusAddr = (s.cell statusAddr &&& 0x07#8) ||| 0x18#8 := s.cell_softReset statusAddr
  show ((s.softReset.setCellBit statusAddr toBit false).setCellBit statusAddr pdBit true).cell statusAddr = _
  rw [State.cell_setCellBit, if_pos rfl, State.cell_setCellBit, if_pos rfl, hreset, hbits]

theorem State.cellBit_status_watchdogReset {j : Nat} (hj : j < 8) : s.watchdogReset.cellBit statusAddr j
    = if j = pdBit then true else if j < 3 then s.cellBit statusAddr j else false := by
  rw [State.cellBit, s.status_watchdogReset]
  interval_cases j <;> simp [State.cellBit]

end

/-- Settles O44: the limit is reached from 127 alone, and the reset is followed by two bits of STATUS. -/
theorem watchdogResetsAtLimit : Obligations.WatchdogResetsAtLimit := by
  intro s
  refine ⟨State.wdtIncrement_of_ne, fun h => ?_⟩
  rw [State.wdtIncrement_of_eq h]
  exact ⟨rfl, rfl, sameButBits_watchdogReset s, fun _ => s.cellBit_status_watchdogReset⟩

/-- Settles O45: delivering the event is `WdtTick` itself. -/
theorem wdtTickRoutesByPsa : Obligations.WdtTickRoutesByPsa := fun _ => rfl

/-- `s` with PRE and WDT as `n` watchdog ticks at rate 128 leave them (R220). -/
def State.afterTicks (s : State) (n : Nat) : State :=
  { s with pre := BitVec.ofNat 8 (n % 128), wdt := BitVec.ofNat 8 (n / 128) }

/-- The power-on values of PRE and WDT are those before any tick. -/
theorem State.afterTicks_zero {s : State} (hpre : s.pre = 0) (hwdt : s.wdt = 0) : s.afterTicks 0 = s := by
  cases s
  cases hpre
  cases hwdt
  rfl

section
variable {s : State} (h : s.cell optionAddr = 0xFF)
include h

/-- OPTION = 0xFF gives the prescaler to the watchdog, at rate 128. -/
theorem State.psa_and_threshold_of_option :
    s.cellBit optionAddr psaBit = true ∧ s.prescalerThreshold = 128 := by
  have hpsa : s.cellBit optionAddr psaBit = true := by rw [State.cellBit, h]; rfl
  exact ⟨hpsa, by rw [s.prescalerThreshold_eq, if_pos hpsa, h]; rfl⟩

theorem State.wdtTick_count (hpre : s.pre.toNat + 1 < 128) : s.wdtTick = { s with pre := s.pre + 1 } := by
  obtain ⟨hpsa, hthr⟩ := State.psa_and_threshold_of_option h
  exact (if_pos hpsa).trans (s.prescalerTick_count (hthr ▸ hpre))

theorem State.wdtTick_carry (hpre : 128 ≤ s.pre.toNat + 1) :
    s.wdtTick = ({ s with pre := 0 } : State).wdtIncrement := by
  obtain ⟨hpsa, hthr⟩ := State.psa_and_threshold_of_option h
  exact (if_pos hpsa).trans ((s.prescalerTick_forward (hthr ▸ hpre)).trans (if_pos hpsa))

/-- PRE counts to 127, then carries into WDT. -/
theorem State.wdtTick_afterTicks {n : Nat} (hn : n + 1 < 16384) :
    (s.afterTicks n).wdtTick = s.afterTicks (n + 1) := by
  have hopt : (s.afterTicks n).cell optionAddr = 0xFF := h
  have hpre : (s.afterTicks n).pre.toNat = n % 128 := Nat.mod_eq_of_lt (by omega)
  have hwdt : (s.afterTicks n).wdt.toNat = n / 128 := Nat.mod_eq_of_lt (by omega)
  by_cases hlt : n % 128 + 1 < 128
  · have hmod : (n + 1) % 128 = n % 128 + 1 := by omega
    have hdiv : (n + 1) / 128 = n / 128 := by omega
    rw [State.wdtTick_count hopt (by omega)]
    simp only [State.afterTicks, hmod, hdiv, BitVec.ofNat_add]
    rfl
  · have hmod : (n + 1) % 128 = 0 := by omega
    have hdiv : (n + 1) / 128 = n / 128 + 1 := by omega
    have hlimit : (s.afterTicks n).wdt.toNat ≠ 127 := by omega
    rw [State.wdtTick_carry hopt (by omega),
      State.wdtIncrement_of_ne (s := { s.afterTicks n with pre := 0 }) hlimit]
    simp only [State.afterTicks, hmod, hdiv, BitVec.ofNat_add]
    rfl

/-- The tick that carries out of both counters. -/
theorem State.wdtTick_afterTicks_last : (s.afterTicks 16383).wdtTick = s.watchdogReset := by
  have hopt : (s.afterTicks 16383).cell optionAddr = 0xFF := h
  have hlimit : (s.afterTicks 16383).wdt.toNat = 127 := rfl
  exact (State.wdtTick_carry hopt (Nat.le_refl 128)).trans
    (State.wdtIncrement_of_eq (s := { s.afterTicks 16383 with pre := 0 }) hlimit)

/-- Short of the period each tick counts. -/
theorem State.wdtTicks_eq_afterTicks (hpre : s.pre = 0) (hwdt : s.wdt = 0) {n : Nat} (hn : n < 16384) :
    s.wdtTicks n = s.afterTicks n := by
  induction n with
  | zero => exact (State.afterTicks_zero hpre hwdt).symm
  | succ n ih => exact (congrArg State.wdtTick (ih (Nat.lt_of_succ_lt hn))).trans (State.wdtTick_afterTicks h hn)

theorem State.wdtTicks_period (hpre : s.pre = 0) (hwdt : s.wdt = 0) : s.wdtTicks 16384 = s.watchdogReset :=
  (congrArg State.wdtTick (State.wdtTicks_eq_afterTicks h hpre hwdt (by decide : 16383 < 16384))).trans
    (State.wdtTick_afterTicks_last h)

end

/-- Settles O46: the ticks count up to the period, and the tick that completes it is the watchdog reset. -/
theorem watchdogPeriodIs16384Ticks : Obligations.WatchdogPeriodIs16384Ticks := by
  intro s hopt hpre hwdt
  rw [State.wdtTicks_period hopt hpre hwdt]
  exact ⟨fun _ => State.wdtTicks_eq_afterTicks hopt hpre hwdt, rfl, rfl, s.status_watchdogReset⟩

/-! ## The pin interrupts (R222 to R224) -/

section
variable (b : Bool) (level : Level)

/-- An edge-select bit that picks the rising edge. -/
theorem beq_isHigh_iff : (b == level.isHigh) = true ↔ (b = true ↔ level = .high) := by
  have hhigh : level = .high ↔ level.isHigh = true := by cases level <;> decide
  rw [beq_iff_eq, Bool.eq_iff_iff, hhigh]

/-- An edge-select bit that picks the falling edge. -/
theorem bne_isHigh_iff : (b != level.isHigh) = true ↔ (b = true ↔ level = .low) := by
  have hlow : level = .low ↔ (!level.isHigh) = true := by cases level <;> decide
  rw [bne_iff_ne, ← Bool.eq_not, Bool.eq_iff_iff, hlow]

end

section
variable (s : State) (level : Level)

theorem State.ra4Edge_selects : (s.cellBit optionAddr t0csBit && s.cellBit optionAddr t0seBit != level.isHigh) = true
    ↔ s.cellBit optionAddr t0csBit = true ∧ (s.cellBit optionAddr t0seBit = true ↔ level = .low) := by
  rw [Bool.and_eq_true, bne_isHigh_iff]

theorem State.rb0Edge_selects : (s.cellBit optionAddr intedgBit == level.isHigh && s.interruptsEnabled inteBit) = true
    ↔ (s.cellBit optionAddr intedgBit = true ↔ level = .high) ∧ Enabled s inteBit := by
  rw [Bool.and_eq_true, beq_isHigh_iff, interruptsEnabled_iff]

/-- An interrupt taken on a condition. -/
theorem interruptTaken_if {c : Bool} {P : Prop} (h : c = true ↔ P) (flag : Nat) :
    (P → InterruptTaken s (if c then s.takeInterrupt flag else s) flag)
      ∧ (¬P → (if c then s.takeInterrupt flag else s) = s) := by
  refine ⟨fun hP => ?_, fun hP => if_neg (mt h.1 hP)⟩
  rw [if_pos (h.2 hP)]
  exact interruptTaken_takeInterrupt s flag

end

/-- Settles O47: T0CS and the selected edge let the edge through to what PSA names. -/
theorem ra4EdgeClocksTimer : Obligations.Ra4EdgeClocksTimer := by
  intro s level selected psa
  have hsel := s.ra4Edge_selects level
  refine ⟨fun h hpsa => congrArg Host.Outcome.next ?direct, fun h hpsa => congrArg Host.Outcome.next ?prescaled,
    fun h => congrArg Host.Outcome.next ?unselected⟩
  case direct => exact (if_pos (hsel.2 h)).trans (if_pos hpsa)
  case prescaled => exact (if_pos (hsel.2 h)).trans (if_neg (ne_true_of_eq_false hpsa))
  case unselected => exact if_neg (mt hsel.1 h)

/-- Settles O48: the interrupt is taken on the edge INTEDG selects, enabled by INTE. -/
theorem rb0EdgeInterrupts : Obligations.Rb0EdgeInterrupts := fun s level =>
  ⟨s.rb0Edge level, rfl, interruptTaken_if s (s.rb0Edge_selects level) intfBit⟩

/-- Settles O49: the four pins share one event, which depends on neither the pin nor the level. -/
theorem portChangeInterrupts : Obligations.PortChangeInterrupts := by
  intro s pin level hpin
  have hdeliver : deliver (.pinChanged pin level) s = .next s.rbChange := by
    fin_cases hpin <;> rfl
  exact ⟨s.rbChange, hdeliver, interruptTaken_if s (interruptsEnabled_iff s rbieBit) rbifBit⟩

/-! ## The return from an interrupt (R211, R230) -/

section
variable (s : State) (flag : Nat)

/-- The PC an interrupt pushes is what the next pop returns. -/
theorem State.popValue_takeInterrupt : (s.takeInterrupt flag).popValue = s.pc := s.popValue_push s.pc

theorem State.cellBit_intcon_return_takeInterrupt {j : Nat} (hj : j < 8) :
    (s.takeInterrupt flag).returnFromInterrupt.cellBit intconAddr j
      = if j = gieBit ∨ j = flag then true else s.cellBit intconAddr j := by
  rw [State.intcon_returnFromInterrupt _ hj, s.intcon_takeInterrupt flag j hj]
  by_cases hgie : j = gieBit <;> simp [hgie]

end

/-- Settles O52: RETFIE pops the PC the interrupt pushed, and each of the two writes INTCON alone. -/
theorem retfieUndoesInterrupt : Obligations.RetfieUndoesInterrupt := by
  intro s flag _
  refine ⟨_, exec_retfie _, s.popValue_takeInterrupt flag, add_sub_cancel_right s.sp 1, rfl, Nat.add_assoc s.cyc 1 2,
    fun q hq => ?cells, fun _ => s.cellBit_intcon_return_takeInterrupt flag⟩
  case cells =>
    exact ((s.takeInterrupt flag).popPc.cell_setCellBit_ne gieBit true hq).trans (s.cell_takeInterrupt_ne flag hq)

/-! ## INTCON as a destination (R228) -/

/-- The end of a step whose timer tick takes no interrupt changes PC, CYC and TMR0 alone. -/
theorem State.retire_of_not_tickInterrupts {s : State} (skip : Bool) (cycles : Nat) (h : ¬s.TickInterrupts) :
    SameStack s (s.retire skip cycles) ∧ (s.retire skip cycles).cyc = s.cyc + cycles
      ∧ ∀ q, q ≠ tmr0Addr → (s.retire skip cycles).cell q = s.cell q := by
  obtain ⟨hcounter, hinternal⟩ := retireAdvancesAndTicks s skip cycles
  cases hcs : s.cellBit optionAddr t0csBit with
  | true =>
    obtain ⟨-, -, hcyc, hstack, -, hcell⟩ := hcounter hcs
    exact ⟨hstack, hcyc, fun q _ => hcell q⟩
  | false =>
    obtain ⟨-, -, hcount⟩ := hinternal hcs
    obtain ⟨-, -, hcyc, hstack, -, hcell⟩ := hcount fun hov => h ⟨hcs, hov⟩
    exact ⟨hstack, hcyc, hcell⟩

/-- A write of INTCON and flags after it leave every other cell but STATUS. -/
theorem State.cell_writeBits_cellWrite_intcon (s : State) (v : Byte) (bits : List (Nat × Bool)) {q : Byte}
    (hq : q ≠ statusAddr) :
    ((s.cellWrite intconAddr v).writeBits bits).cell q = if q = intconAddr then v else s.cell q := by
  rw [State.cell_writeBits _ _ hq]
  exact s.cell_setCell intconAddr v q

/-- Settles O53: the result and the flags leave what the timer tick depends on but for INTCON, and without that tick's
interrupt phases 5 and 6 only advance PC and CYC and count TMR0. -/
theorem settingGieEntersNoInterrupt : Obligations.SettingGieEntersNoInterrupt := by
  intro i s hd htick
  let e := (s.cellWrite intconAddr (resultOf i s)).writeBits (flagsOf i s)
  have hcell : ∀ q, q ≠ statusAddr → e.cell q = if q = intconAddr then resultOf i s else s.cell q :=
    fun _ => s.cell_writeBits_cellWrite_intcon _ _
  have hnot : ¬e.TickInterrupts := by
    rintro ⟨hcs, hmax, -⟩
    rw [State.cellBit, hcell _ (by decide), if_neg (by decide)] at hcs
    rw [hcell _ (by decide), if_neg (by decide)] at hmax
    exact htick.elim (fun h => Bool.false_ne_true (hcs.symm.trans h)) (fun h => h hmax)
  obtain ⟨-, hepc, hecyc, -⟩ := (s.cellWrite intconAddr (resultOf i s)).writeBits_keeps (flagsOf i s)
  have hestack : SameStack s e := (sameStack_cellWrite ..).trans (sameStack_writeBits ..)
  obtain ⟨hstack, hcyc, hkeep⟩ :=
    State.retire_of_not_tickInterrupts (skips i s) (skipCycles (skips i s)) hnot
  refine ⟨_, exec_of_destCell hd, ?pc, hestack.trans hstack, ?cyc, ?intcon⟩
  case pc =>
    rw [State.retire_pc_of_not_tickInterrupts _ _ hnot, hepc]
    rfl
  case cyc =>
    rw [hcyc, hecyc]
    rfl
  case intcon => rw [hkeep _ (by decide), hcell _ (by decide), if_pos rfl]

/-! ## Inspection by bank (R236) -/

/-- The bank adjustment gives an address below the offset for that address alone. -/
theorem bankAdjust_ne {a p : Byte} (bank : Bool) (hp : p.toNat < 128) (h : a ≠ p) : bankAdjust bank a ≠ p := by
  have hbank1 : ∀ a ∈ [(1 : Byte), 5, 6, 8, 9], ¬(bankAdjust true a).toNat < 128 := by decide
  by_cases ha : a ∈ [(1 : Byte), 5, 6, 8, 9]
  · cases bank
    · exact h
    · exact fun hadj => hbank1 a ha (hadj ▸ hp)
  · rwa [bankAdjust_of_notAliased bank ha]

section
variable (s : State)

theorem State.inspectBank_of_ne_zero (draw : Nat) {a : Byte} (bank : Bool) (h : a ≠ 0) :
    s.inspectBank draw a bank = s.cellRead (bankAdjust bank a) := if_neg h

/-- A write of a cell that is not inspected changes no answer. -/
theorem State.inspectBank_setCell (draw : Nat) {a p : Byte} (bank : Bool) (v : Byte) (hp : p.toNat < 128)
    (h0 : a ≠ 0) (h : a ≠ p) : (s.setCell p v).inspectBank draw a bank = s.inspectBank draw a bank := by
  rw [State.inspectBank_of_ne_zero _ _ _ h0, State.inspectBank_of_ne_zero _ _ _ h0]
  exact State.cellRead_congr s (t := s.setCell p v) rfl (s.cell_setCell_ne v (bankAdjust_ne bank hp h))

end

/-- Settles O60: both inspections read the bank-adjusted cell, which is STATUS or FSR for no other address. -/
theorem bankExplicitInspection : Obligations.BankExplicitInspection := by
  intro s draw a bank h0
  refine ⟨fun hbank => ?_, fun v => s.inspectBank_setCell draw bank _ (by decide) h0,
    fun v => s.inspectBank_setCell draw bank v (by decide) h0⟩
  rw [s.inspectBank_of_ne_zero draw bank h0, State.inspectByte, State.memRead, s.resolve_of_ne_zero h0, hbank]

end Sys2Proof.Machine

/-! SUPPORT. The resets (spec 70_reset_and_hazards.md): `Reset()` on any state, and on a state whose cells all read 0,
where it leaves every cell at the value an unlisted cell holds. -/

namespace Sys2Proof.Machine

/-! ## Reset (R252, R253) -/

section
variable (s : State)

/-- The registers outside the register file that a reset sets. -/
theorem State.softReset_registers :
    s.softReset.sp = 0 ∧ (∀ i : Fin 8, s.softReset.peek i = 0) ∧ s.softReset.pre = 0 ∧ s.softReset.cyc = 0
      ∧ s.softReset.wdt = 0 ∧ s.softReset.pc = 0 :=
  ⟨rfl, fun i => Vector.getElem_replicate i.isLt, rfl, rfl, rfl, rfl⟩

theorem State.cellBit_status_softReset {j : Nat} (hj : j < 8) : s.softReset.cellBit statusAddr j
    = if j < 3 then s.cellBit statusAddr j else decide (j = toBit ∨ j = pdBit) := by
  have hstatus : s.softReset.cell statusAddr = (s.cell statusAddr &&& 0x07#8) ||| 0x18#8 := s.cell_softReset statusAddr
  rw [State.cellBit, hstatus]
  interval_cases j <;> simp [State.cellBit]

/-- A cell that a reset does not set keeps its value. -/
theorem State.cell_softReset_of_notMem {q : Byte}
    (hq : q ∉ [statusAddr, optionAddr, trisaAddr, trisbAddr, intconAddr]) : s.softReset.cell q = s.cell q := by
  simp only [List.mem_cons, List.not_mem_nil, or_false, not_or] at hq
  obtain ⟨hstatus, hoption, htrisa, htrisb, hintcon⟩ := hq
  rw [State.cell_softReset, if_neg hintcon, if_neg htrisb, if_neg htrisa, if_neg hoption, if_neg hstatus]

end

/-- Settles O54: the registers are set, and five cells are written, STATUS with its low three bits as they were. -/
theorem softResetSetsAndKeeps : Obligations.SoftResetSetsAndKeeps := by
  intro s
  obtain ⟨hsp, hstk, hpre, hcyc, hwdt, hpc⟩ := s.softReset_registers
  exact ⟨s.softReset, rfl, hsp, hstk, hpre, hcyc, hwdt, hpc, rfl, rfl, fun _ => s.cellBit_status_softReset,
    s.cell_softReset optionAddr, s.cell_softReset trisaAddr, s.cell_softReset trisbAddr, s.cell_softReset intconAddr,
    fun _ => s.cell_softReset_of_notMem⟩

/-! ## Power-on reset (R250): every cell at its reset value -/

theorem resetCell_toNat (q : Byte) : resetCell q.toNat = if q = statusAddr then 0x18 else if q = optionAddr then 0xFF
    else if q = trisaAddr then 0x1F else if q = trisbAddr then 0xFF else 0 := by
  simp only [resetCell, ← BitVec.toNat_inj]
  rfl

theorem State.cellRead_setW (s : State) (v q : Byte) : (s.setW v).cellRead q = s.cellRead q := rfl

/-- A reset leaves a cell that holds 0 at its reset value, where STATUS holds 0. -/
theorem State.cell_softReset_of_zero {s : State} {q : Byte} (hstatus : s.cell statusAddr = 0) (hq : s.cell q = 0) :
    s.softReset.cell q = resetCell q.toNat := by
  rw [State.cell_softReset, hstatus, hq]
  clear hq
  revert q
  decide

/-- A reset of a machine whose cells all read 0 leaves each cell at its reset value; the PC windows read 0. -/
theorem State.cellRead_softReset_of_zeroed {s : State} (hz : ∀ q, s.cellRead q = 0) (q : Byte) :
    s.softReset.cellRead q = resetCell q.toNat := by
  by_cases hpcl : q = pclAddr
  · rw [hpcl]
    rfl
  by_cases hpclath : q = pclathAddr
  · rw [hpclath]
    show ((0 : PcWord).extractLsb' 8 5).setWidth 8 = (0 : Byte)
    decide
  rw [State.cellRead_cell _ hpcl hpclath]
  exact State.cell_softReset_of_zero (hz statusAddr) ((s.cellRead_cell hpcl hpclath).symm.trans (hz q))

section
variable (s : State)

theorem State.cellRead_powerOnReset (q : Byte) : s.powerOnReset.cellRead q = resetCell q.toNat := by
  rw [State.powerOnReset_eq]
  exact State.cellRead_softReset_of_zeroed (fun p => (s.zeroCells.cellRead_setW 0 p).trans (s.cellRead_zeroCells p)) q

/-- The registers outside the register file after a power-on reset. -/
theorem State.powerOnReset_registers :
    s.powerOnReset.sp = 0 ∧ (∀ i : Fin 8, s.powerOnReset.peek i = 0) ∧ s.powerOnReset.pre = 0
      ∧ s.powerOnReset.cyc = 0 ∧ s.powerOnReset.wdt = 0 ∧ s.powerOnReset.pc = 0 :=
  s.powerOnReset_eq ▸ State.softReset_registers _

theorem State.powerOnReset_w : s.powerOnReset.w = 0 := by
  rw [State.powerOnReset_eq, State.softReset_w, State.setW_w]

end

/-- Settles O55: a power-on reset is a reset of the machine with W and every cell 0. -/
theorem powerOnResetZeroesTheMachine : Obligations.PowerOnResetZeroesTheMachine := by
  intro s
  obtain ⟨hsp, hstk, hpre, hcyc, hwdt, hpc⟩ := s.powerOnReset_registers
  exact ⟨s.powerOnReset, rfl, hsp, hstk, hpre, hcyc, hwdt, hpc, s.powerOnReset_w, s.powerOnReset_prog,
    fun q => (s.cellRead_powerOnReset q).trans (resetCell_toNat q)⟩

/-! ## Power-on reset of a well-formed machine (R257) -/

/-- An address that no entry names holds the default. -/
theorem listRead_of_absent {n : Nat} {dflt : Nat → BitVec n} {m : List (Nat × BitVec n)} {b : Nat}
    (h : ∀ e ∈ m, e.1 ≠ b) : listRead dflt m b = dflt b := by
  induction m with
  | nil => rfl
  | cons e m ih =>
    rw [listRead, if_neg (h e List.mem_cons_self).symm]
    exact ih fun x hx => h x (List.mem_cons_of_mem e hx)

/-- A register file in canonical form lists nothing where every cell holds its reset value. -/
theorem State.cells_eq_nil {s : State} (hwf : Memory.wf s.cells = true)
    (h : ∀ q, s.cellRead q = resetCell q.toNat) : s.cells = [] := by
  simp only [Memory.wf, Bool.and_eq_true, List.all_eq_true, decide_eq_true_eq, bne_iff_ne] at hwf
  obtain ⟨hcanon, haddr⟩ := hwf
  refine canonicalFrom_ext hcanon rfl fun b => ?_
  show listRead resetCell s.cells b = resetCell b
  by_cases hb : b < 256 ∧ b ≠ pclAddr.toNat ∧ b ≠ pclathAddr.toNat
  · obtain ⟨hlt, hpcl, hpclath⟩ := hb
    have hq : (BitVec.ofNat 8 b).toNat = b := Nat.mod_eq_of_lt hlt
    have hcell := h (BitVec.ofNat 8 b)
    rwa [State.cellRead_cell s (fun hc => hpcl (hq ▸ congrArg BitVec.toNat hc))
      (fun hc => hpclath (hq ▸ congrArg BitVec.toNat hc)), State.cell, hq] at hcell
  · refine listRead_of_absent fun e he heb => hb ?_
    obtain ⟨⟨hlt, hpcl⟩, hpclath⟩ := haddr e he
    exact heb ▸ ⟨hlt, hpcl, hpclath⟩

/-- A reset sets every field but W, the cells, program memory and the events. -/
theorem State.softReset_eq (s : State) : s.softReset = { State.reset with
    w := s.softReset.w, cells := s.softReset.cells, prog := s.softReset.prog, inputs := s.softReset.inputs } := rfl

/-- Settles O56: the zeroed machine stays canonical, so with every cell at its reset value no cell is listed. -/
theorem powerOnResetGivesResetState : Obligations.PowerOnResetGivesResetState := by
  intro s hinv
  obtain ⟨hwf, -⟩ := hinv
  have hcells : s.powerOnReset.cells = [] := State.cells_eq_nil (s.wf_powerOnReset hwf) s.cellRead_powerOnReset
  have h := (s.zeroCells.setW 0).softReset_eq
  rw [← State.powerOnReset_eq, s.powerOnReset_w, hcells, s.powerOnReset_prog, s.powerOnReset_inputs] at h
  exact congrArg Host.Outcome.next h

end Sys2Proof.Machine

/-! SUPPORT. The cells an instruction leaves, the pin events that enter no interrupt (spec 60_exceptions.md R206, R225),
and the values of the reset state (spec 10_state.md R52). -/

namespace Sys2Proof.Machine

/-! ## The cells of an instruction -/

/-- The Execute phase changes no cell but the destination, STATUS and INTCON. -/
theorem State.cell_executed_ne (s : State) (i : Instr) {q : Byte} (hstatus : q ≠ statusAddr) (hintcon : q ≠ intconAddr)
    (hd : destCell i s ≠ some q) : (s.executed i).cell q = s.cell q :=
  calc (s.executed i).cell q
      = ((s.storeResult i).writeBits (flagsOf i s)).cell q := State.cell_ownEffect_ne _ i hintcon
    _ = (s.storeResult i).cell q := State.cell_writeBits _ _ hstatus
    _ = s.cell q := s.cell_storeResult_ne i hd

/-- Settles O31: a cell that is no PC window reads as it holds, and no phase changes it. -/
theorem instructionCellFrame : Obligations.InstructionCellFrame := by
  intro i s t q ht htmr0 hstatus hintcon hpcl hpclath hd
  obtain rfl := afterInstr_of_exec ht
  rw [State.cellRead_cell _ hpcl hpclath, State.cellRead_cell _ hpcl hpclath,
    s.cell_afterInstr_ne i htmr0 hintcon, s.cell_executed_ne i hstatus hintcon hd]

/-! ## Pin events without an interrupt (R206, R225) -/

/-- Settles O50: these pins are routed to nothing. -/
theorem otherPinsHaveNoEffect : Obligations.OtherPinsHaveNoEffect := by
  intro s pin level hpin
  cases pin with
  | ra4 | rb0 | rb4 | rb5 | rb6 | rb7 => exact absurd (by decide) hpin
  | ra0 | ra1 | ra2 | ra3 | rb1 | rb2 | rb3 => rfl

/-- PC, the return stack, CYC, W and every cell but TMR0 are in `t` as in `s`: no interrupt was entered or flagged. -/
def LeavesNoTrace (s t : State) : Prop :=
  t.pc = s.pc ∧ SameStack s t ∧ t.cyc = s.cyc ∧ t.w = s.w ∧ ∀ q, q ≠ tmr0Addr → t.cell q = s.cell q

theorem LeavesNoTrace.refl (s : State) : LeavesNoTrace s s := ⟨rfl, SameStack.refl s, rfl, rfl, fun _ _ => rfl⟩

theorem LeavesNoTrace.of_eq {s t : State} (h : t = s) : LeavesNoTrace s t := h ▸ LeavesNoTrace.refl s

section
variable {s : State} (hgie : s.cellBit intconAddr gieBit = false)
include hgie

theorem not_enabled_of_gie_clear (enable : Nat) : ¬Enabled s enable := fun ⟨h, _⟩ =>
  Bool.false_ne_true (hgie.symm.trans h)

/-- With GIE clear TMR0 only counts, even on an overflow. -/
theorem leavesNoTrace_tmr0Increment : LeavesNoTrace s s.tmr0Increment := by
  rw [s.tmr0Increment_notTaken fun ⟨_, h⟩ => not_enabled_of_gie_clear hgie _ h]
  exact ⟨rfl, SameStack.refl s, rfl, rfl, fun _ hq => s.cell_setCell_ne _ hq⟩

/-- With the prescaler assigned to Timer0, a tick counts PRE or TMR0. -/
theorem leavesNoTrace_prescalerTick (hpsa : s.cellBit optionAddr psaBit = false) : LeavesNoTrace s s.prescalerTick := by
  rcases Nat.lt_or_ge (s.pre.toNat + 1) s.prescalerThreshold with hlt | hge
  · rw [s.prescalerTick_count hlt]
    exact LeavesNoTrace.refl s
  · rw [s.prescalerTick_forward hge, if_neg (ne_true_of_eq_false hpsa)]
    exact leavesNoTrace_tmr0Increment (s := { s with pre := 0 }) hgie

theorem leavesNoTrace_ra4Edge (level : Level) : LeavesNoTrace s (s.ra4Edge level) := by
  unfold State.ra4Edge
  dsimp only
  split
  · split
    · exact leavesNoTrace_tmr0Increment hgie
    · next hpsa => exact leavesNoTrace_prescalerTick hgie (eq_false_of_ne_true hpsa)
  · exact LeavesNoTrace.refl s

theorem rb0Edge_of_gie_clear (level : Level) : s.rb0Edge level = s :=
  if_neg fun h => not_enabled_of_gie_clear hgie _ ((s.rb0Edge_selects level).1 h).2

theorem rbChange_of_gie_clear : s.rbChange = s :=
  if_neg fun h => not_enabled_of_gie_clear hgie _ ((interruptsEnabled_iff s rbieBit).1 h)

end

/-- Settles O51: RA4 counts without an interrupt, and no other pin does anything. -/
theorem pinEventsWithoutGieLeaveNoTrace : Obligations.PinEventsWithoutGieLeaveNoTrace := by
  intro s t pin level hgie ht
  obtain rfl : s.pinChanged pin level = t := Host.Outcome.next.inj ht
  show LeavesNoTrace s _
  cases pin with
  | ra4 => exact leavesNoTrace_ra4Edge hgie level
  | rb0 => exact .of_eq (rb0Edge_of_gie_clear hgie level)
  | rb4 | rb5 | rb6 | rb7 => exact .of_eq (rbChange_of_gie_clear hgie)
  | ra0 | ra1 | ra2 | ra3 | rb1 | rb2 | rb3 => exact LeavesNoTrace.refl s

/-! ## The reset state (10_state.md R52) -/

/-- Settles O57: no cell is listed, so each holds its reset value, and the PC windows read the reset vector. -/
theorem resetStateValues : Obligations.ResetStateValues :=
  ⟨rfl, rfl, rfl, rfl, rfl, rfl, rfl, rfl, rfl, rfl, fun i => Vector.getElem_replicate i.isLt⟩

end Sys2Proof.Machine
